-- ==== Sys2Proof/Word.lean ====
section
/-! DEFINITION. The widths of the block: state words, command words, response words (rules R9, R70, R72). -/

namespace Sys2Proof

/-- A word: an unsigned 32-bit value; bit 0 is its least significant bit (rule R9). -/
abbrev Word := BitVec 32

/-- A command word `cmd[71:0]` (rule R70). -/
abbrev CommandWord := BitVec 72

/-- A response word `rsp[39:0]` (rule R72). -/
abbrev ResponseWord := BitVec 40

end Sys2Proof
end

