-- ==== Sys2Proof/Config.lean ====
section
/-! DEFINITION. What this hardware fixes: the code-point space and the number of status registers (rules R8, R31). The
size of the state array, 624 (rule R7), stands in the type `StateArray`; the constants of the algorithm stand beside the operations
that use them.
There is no free value: the spec leaves the block none (93_implementation_defined.md, end of section 2). -/

namespace Sys2Proof.Config

/-- `CP_MODULUS`: code points are the integers below it (rule R8, decision D10). -/
abbrev cpModulus : Nat := 0x110000

/-- The number of status registers (rule R31): an index at or above it names none. -/
abbrev statusRegisters : Nat := 4

end Sys2Proof.Config
end

