-- ==== Sys2Proof/Syntax.lean ====
section
/-! DEFINITION. The commands of MTSC-1 (rule R74), one constructor per row of spec/opcode_table.json, and the names under which the
decoder rejects a word (rules R75, R76). -/

namespace Sys2Proof

/-- The five commands. The operands are the fields `A` and `B` of the command word, taken as unsigned 32-bit integers (rule R73). -/
inductive Instr where
  /-- `SEED n`: seed the generator with the word `n` (rule R90). -/
  | seed (n : Word)
  /-- `NEXTINT lo, hi`: one draw rescaled into `[lo, hi]` (rule R118). -/
  | nextint (lo hi : Word)
  /-- `ENC c`: encipher the code point `c` (rule R130). -/
  | enc (c : Word)
  /-- `DEC c`: decipher the code point `c` (rule R131). -/
  | dec (c : Word)
  /-- `RDSR sr`: read status register `sr`; the whole field `A` is kept, so that `RDSR 4` can be written (rules R81, R150). -/
  | rdsr (sr : Word)
deriving DecidableEq, Repr

/-- Why a command word is illegal (rules R75, R76). The block reports one fault for all three. -/
inductive Illegal where
  /-- `OP` is 0x00 or in 0x06 .. 0xFF (rule R75). -/
  | unknownOp (op : BitVec 8)
  /-- The field `B` must be zero and is not (rule R76). -/
  | bNotZero (op : BitVec 8) (b : Word)
  /-- `RDSR` with a field `A` greater than 3 (rule R76). -/
  | noStatusRegister (a : Word)
deriving DecidableEq, Repr

end Sys2Proof
end

