-- ==== Sys2Proof/WellFormed.lean ====
section
/-! DEFINITION. Which terms of `Instr` stand for a command word of the opcode map (rules R73, R74, R76). -/

namespace Sys2Proof

/-- The one operand check of the encoding: the index of `RDSR` is 0 .. 3 (rules R71, R76). Every value of the other operands is a
legal encoding, code points out of range and `lo > hi` included (95_test_vectors.md section 2.8). -/
def Instr.wellFormed : Instr → Bool
  | .seed _ => true
  | .nextint _ _ => true
  | .enc _ => true
  | .dec _ => true
  | .rdsr sr => decide (sr.toNat < Config.statusRegisters)

end Sys2Proof
end

