-- ==== Sys2Proof/Decode.lean ====
section
/-! DEFINITION. The command word: its fields, the decoder (total on the 2^72 words, rejecting by name) and the encoder
(rules R70, R71, R73 to R77). -/

namespace Sys2Proof

/-- `OP`, bits 71:64 (rule R70). -/
def opField (w : CommandWord) : BitVec 8 := w.extractLsb' 64 8

/-- `A`, bits 63:32 (rule R70). -/
def aField (w : CommandWord) : Word := w.extractLsb' 32 32

/-- `B`, bits 31:0 (rule R70). -/
def bField (w : CommandWord) : Word := w.extractLsb' 0 32

/-- Format `FA` (rule R71): the operand is `A`, and `B` must be zero (rule R76). -/
def decodeFA (mk : Word → Instr) (w : CommandWord) : Except Illegal Instr :=
  if bField w = 0#32 then .ok (mk (aField w)) else .error (.bNotZero (opField w) (bField w))

/-- Format `FSR` (rule R71): the index is `A[1:0]`; `A[31:2]` and `B` must be zero (rule R76). -/
def decodeFSR (w : CommandWord) : Except Illegal Instr :=
  if bField w = 0#32 then
    if (aField w).toNat < Config.statusRegisters then .ok (.rdsr (aField w)) else .error (.noStatusRegister (aField w))
  else .error (.bNotZero (opField w) (bField w))

/-- The opcode map (rule R74). It looks at the 72 bits of the word alone (rules R77, R161). -/
def decode (w : CommandWord) : Except Illegal Instr :=
  if opField w = 0x01#8 then decodeFA .seed w
  else if opField w = 0x02#8 then .ok (.nextint (aField w) (bField w))
  else if opField w = 0x03#8 then decodeFA .enc w
  else if opField w = 0x04#8 then decodeFA .dec w
  else if opField w = 0x05#8 then decodeFSR w
  else .error (.unknownOp (opField w))

/-- The word with the fields `OP`, `A`, `B` (rule R70). -/
def commandWord (op : BitVec 8) (a b : Word) : CommandWord := op ++ a ++ b

/-- The command word of an instruction, every must-be-zero field zero (rules R73, R74, R79). A term that is not well formed has a word
too, an illegal one: `RDSR 4` is a line the assembler accepts (rule R81). -/
def encode : Instr → CommandWord
  | .seed n => commandWord 0x01#8 n 0#32
  | .nextint lo hi => commandWord 0x02#8 lo hi
  | .enc c => commandWord 0x03#8 c 0#32
  | .dec c => commandWord 0x04#8 c 0#32
  | .rdsr sr => commandWord 0x05#8 sr 0#32

/-- The `mask` column of an instruction's row in the opcode map (rule R74). -/
def rowMask : Instr → CommandWord
  | .seed _ => 0xFF00000000FFFFFFFF#72
  | .nextint _ _ => 0xFF0000000000000000#72
  | .enc _ => 0xFF00000000FFFFFFFF#72
  | .dec _ => 0xFF00000000FFFFFFFF#72
  | .rdsr _ => 0xFFFFFFFFFCFFFFFFFF#72

/-- The `match` column of an instruction's row in the opcode map (rule R74). -/
def rowMatch : Instr → CommandWord
  | .seed _ => 0x010000000000000000#72
  | .nextint _ _ => 0x020000000000000000#72
  | .enc _ => 0x030000000000000000#72
  | .dec _ => 0x040000000000000000#72
  | .rdsr _ => 0x050000000000000000#72

/-- The command word whose bits the opcode table numbers as `w`: a command is ONE word, so bit 0 of `w` is bit 0 of `cmd[71:0]`
(rule R70). Bits at `nbits` and above are zero. -/
def tableWord (nbits w : Nat) : CommandWord := BitVec.ofNat 72 (w % 2 ^ nbits)

/-- What the decoder reads from a table row's word; a command has 72 bits and no other length (rule R77). -/
def decodeTableWord (nbits w : Nat) : Option Instr :=
  if nbits ≤ 72 then
    match decode (tableWord nbits w) with
    | .ok i => some i
    | .error _ => none
  else none

end Sys2Proof
end

