-- ==== Sys2Proof/Machine/State.lean ====
section
/-! DEFINITION. The state of the block (rules R20 to R36), the host's side of its port (rules R5, R190), and the reasons a step stops. -/

namespace Sys2Proof.Machine

/-- The four faults a command can raise (rule R160). A fault does not stop the machine: it is a response and a sticky flag
(rule R165), hence a NEXT state. -/
inductive FaultKind where
  /-- 0x01: the command word matches no row of the opcode map (rule R161). -/
  | illegal
  /-- 0x02: a draw was asked for before any `SEED` since reset (rule R162). -/
  | unseeded
  /-- 0x03: `NEXTINT` with `A > B` (rule R163). -/
  | range
  /-- 0x04: `ENC` or `DEC` of a number that is no code point (rule R164). -/
  | cpRange
deriving DecidableEq, Repr

/-- What a response says (rule R72). A fault is kept apart from every value: its `RESULT` of 0 is no result (rule R165; V2 of
93_implementation_defined.md). `Response.toWord` gives the 40 bits. -/
inductive Response where
  /-- `ST` is `OK` and `RESULT` is `v`. -/
  | ok (v : Word)
  /-- `ST` is the code of the fault. -/
  | fault (k : FaultKind)
deriving DecidableEq, Repr

/-- One move of the host (rule R190). -/
inductive HostMove where
  /-- The host sends one command word, any of the 2^72 (rule R70). -/
  | command (w : CommandWord)
  /-- The host asserts reset between two commands (rules R180, R181). -/
  | reset
deriving DecidableEq, Repr

/-- Why the MODEL stops. None of the spec's own faults is here: those are responses. -/
inductive Fault where
  /-- A word of the state array is read while the array holds no value. Raised by `EXTRACT` and `REGEN`; the hardware never does it
  (rule R22), and no state with the invariant `Sys2Proof.StateInv` does. Safe: the model gives no value where the spec gives none. -/
  | readOfNoValue
deriving DecidableEq, Repr

/-- Why an instruction has no meaning in the model. -/
inductive Refusal where
  /-- The arm of `exec` has no meaning yet; raised by no arm of this model. Safe: nothing can be proved of such a step. -/
  | notModelled (mnemonic : String)
deriving DecidableEq, Repr

/-- `state[0..623]` (rule R20): 624 words; `a[i]` is `state[i]`. -/
abbrev StateArray := Vector Word 624

/-- Everything the spec gives the block (10_state.md section 1), then the two lists of the port, which are the model's own
(log entries 1 and 2). -/
structure State where
  /-- `state[0..623]`, or `none` while the 624 words hold no value (rules R20, R22; log entry 3). -/
  array : Option StateArray
  /-- `cursor`: the index of the next word to temper and return, 0 .. 623 (rule R23; log entry 5). -/
  cursor : Fin 624
  /-- `SEEDED` (rule R27). -/
  seeded : Bool
  /-- `F_ILLEGAL` (rule R28). -/
  fIllegal : Bool
  /-- `F_UNSEEDED` (rule R28). -/
  fUnseeded : Bool
  /-- `F_RANGE` (rule R28). -/
  fRange : Bool
  /-- `F_CP` (rule R28). -/
  fCp : Bool
  /-- `DRAWCNT`: extractions since the last `SEED`, modulo 2^32 (rule R30). -/
  drawcnt : Word
  /-- `REGENCNT`: regenerations since the last `SEED`, modulo 2^32 (rule R30). -/
  regencnt : Word
  /-- MODEL'S OWN: the moves the host has still to make, next one first (rule R190; log entry 1). -/
  host : List HostMove
  /-- MODEL'S OWN: the responses the engine has returned, oldest first (rule R72; log entry 2). -/
  responses : List Response
deriving DecidableEq, Repr

/-- The reset state (rule R36). The host has queued nothing and no response has been returned. -/
def State.reset : State where
  array := none
  cursor := 0
  seeded := false
  fIllegal := false
  fUnseeded := false
  fRange := false
  fCp := false
  drawcnt := 0#32
  regencnt := 0#32
  host := []
  responses := []

end Sys2Proof.Machine
end

