-- ==== Sys2Proof/Machine/Flags.lean ====
section
/-! DEFINITION. The flags: the sticky fault flags, the derived bit `PRIMED`, and the `STATUS` word (rules R26, R28, R31).
There are no condition codes (rule R29). -/

namespace Sys2Proof.Machine

/-- The sticky flag of a fault kind (rules R28, R160). -/
def flag (k : FaultKind) (s : State) : Bool :=
  match k with
  | .illegal => s.fIllegal
  | .unseeded => s.fUnseeded
  | .range => s.fRange
  | .cpRange => s.fCp

/-- `F_X <- 1`; the other three flags keep their values (rule R165). -/
def setFlag (k : FaultKind) (s : State) : State :=
  match k with
  | .illegal => { s with fIllegal := true }
  | .unseeded => { s with fUnseeded := true }
  | .range => { s with fRange := true }
  | .cpRange => { s with fCp := true }

/-- `PRIMED`: the next draw regenerates first; derived from the cursor, not stored (rules R26, R31). -/
def primed (s : State) : Bool := decide (s.cursor = 0)

/-- A flag as the bit at position `n` of a word. -/
def flagBit (b : Bool) (n : Nat) : Word := (BitVec.ofBool b).setWidth 32 <<< n

/-- The `STATUS` register: `SEEDED` in bit 0, `PRIMED` in bit 1, the fault flags in bits 4 to 7, every other bit 0 (rules R31, R150). -/
def statusWord (s : State) : Word :=
  flagBit s.seeded 0 ||| flagBit (primed s) 1 ||| flagBit s.fIllegal 4 ||| flagBit s.fUnseeded 5 |||
    flagBit s.fRange 6 ||| flagBit s.fCp 7

/-- The `CURSOR` register: the cursor, zero-extended (rules R31, R150). -/
def cursorWord (s : State) : Word := BitVec.ofNat 32 s.cursor.val

end Sys2Proof.Machine
end

