-- ==== Sys2Proof/Machine/Operands.lean ====
section
/-! DEFINITION. The arithmetic on command operands: the bounded draw's rescale, the code-point sum and difference, and which status
register an index names (rules R31, R56, R114, R132, R134). -/

namespace Sys2Proof.Machine

/-- `DIVISOR` = 2^32 - 1, not 2^32 (rules R7, R114). -/
def rescaleDivisor : Nat := 4294967295

/-- `SHIFT_MIN`: the cipher's `lo` (rule R7). -/
def shiftMin : Word := 1#32

/-- `SHIFT_MAX`: the cipher's `hi` (rule R7). -/
def shiftMax : Word := 4#32

/-- `RESCALE(y, lo, hi)`, in exact integer arithmetic and rounded down, for `lo <= hi` (rule R114). -/
def rescale (y lo hi : Word) : Word :=
  BitVec.ofNat 32 (lo.toNat + y.toNat * (hi.toNat - lo.toNat) / rescaleDivisor)

/-- The cipher's shift for a tempered word: `RESCALE(y, 1, 4)` (rule R116). -/
def shiftOf (y : Word) : Word := rescale y shiftMin shiftMax

/-- Whether a number is a code point (rules R132, R134). -/
def isCodePoint (c : Word) : Bool := decide (c.toNat < Config.cpModulus)

/-- `(c + shift) mod CP_MODULUS` (rule R132). -/
def cpAdd (c shift : Word) : Word := BitVec.ofNat 32 ((c.toNat + shift.toNat) % Config.cpModulus)

/-- `(c - shift) mod CP_MODULUS`, the remainder in 0 .. CP_MODULUS - 1 also where `c < shift` (rules R10, R132). -/
def cpSub (c shift : Word) : Word :=
  BitVec.ofNat 32 (((c.toNat : Int) - (shift.toNat : Int)) % (Config.cpModulus : Int)).toNat

/-- The status register an index names, `none` where it names none (rules R31, R56). -/
def statusRegister (sr : Word) (s : State) : Option Word :=
  match sr.toNat with
  | 0 => some (statusWord s)
  | 1 => some (cursorWord s)
  | 2 => some s.drawcnt
  | 3 => some s.regencnt
  | _ => none

end Sys2Proof.Machine
end

