-- ==== Sys2Proof/Machine/Ops.lean ====
section
/-! DEFINITION. The internal operations `SEEDFILL`, `REGEN`, `TEMPER`, `EXTRACT` (rules R91, R101, R111, R110), the response word, how a
command ends (`respond`, `raise`), and reset (rules R72, R165, R180). -/

namespace Sys2Proof.Machine

/-! ### Seeding (rule R91) -/

/-- `F`: the multiplier of the seeding transform (rule R7). -/
def seedMultiplier : Word := 1812433253#32

/-- `state[i]` from `p = state[i-1]`: `trunc32(F * p) XOR ((p >> 30) + i)` (rule R91; the literal formula, conflict C1, decision D7). -/
def seedStep (p : Word) (i : Nat) : Word := (seedMultiplier * p) ^^^ ((p >>> 30) + BitVec.ofNat 32 i)

/-- The words `state[i] .. state[i+k-1]`, in ascending order, from `p = state[i-1]` (rule R91). -/
def seedTail : Word → Nat → Nat → List Word
  | _, _, 0 => []
  | p, i, k + 1 => seedStep p i :: seedTail (seedStep p i) (i + 1) k

/-- The loop of rule R91 writes as many words as it runs iterations. -/
theorem seedTail_length (p : Word) (i k : Nat) : (seedTail p i k).length = k := by
  induction k generalizing p i with
  | zero => rfl
  | succ k ih => simp [seedTail, ih]

/-- The array `SEEDFILL(n)` leaves: `state[0]` is `n`, then `i` = 1 .. 623 (rules R91, R92). -/
def seedFill (n : Word) : StateArray :=
  ⟨(n :: seedTail n 1 623).toArray, by simp [seedTail_length]⟩

/-! ### Regeneration (rules R101 to R103) -/

/-- `UPPER_MASK` (rule R7). -/
def upperMask : Word := 0x80000000#32

/-- `LOWER_MASK` (rule R7). -/
def lowerMask : Word := 0x7FFFFFFF#32

/-- `MATRIX_A` (rule R7). -/
def matrixA : Word := 0x9908B0DF#32

/-- The new word of one iteration from the three words it reads: `x = state[i]`, `x1 = state[(i+1) mod 624]`,
`m = state[(i+397) mod 624]` (rules R101, R103). -/
def twist (x x1 m : Word) : Word :=
  let y := (x &&& upperMask) ||| (x1 &&& lowerMask)
  let v := m ^^^ (y >>> 1)
  if y.getLsbD 0 then v ^^^ matrixA else v

/-- `twist` along three lists, as far as the shortest goes. -/
def twistAll : List Word → List Word → List Word → List Word
  | x :: xs, x1 :: x1s, m :: ms => twist x x1 m :: twistAll xs x1s ms
  | _, _, _ => []

/-- The words `REGEN` leaves, from the old words `o`, by the table of rule R102: each read gets the old word or the new word that
the in-place ascending loop of rule R101 would give it. New words 0 .. 226 read old words only (`a`); new words 227 .. 453 and
454 .. 622 read the new word 227 places below (`b` from `a`, `c` from `b`); new word 623 reads new words 0 and 396.
`Sys2Proof.Laws.regenArray_eq_regenLoop` proves it equal to the loop (log entry 9). -/
def regenWords (o : List Word) : List Word :=
  let a := twistAll (o.take 227) (o.drop 1) (o.drop 397)
  let b := twistAll ((o.drop 227).take 227) (o.drop 228) a
  let c := twistAll ((o.drop 454).take 169) (o.drop 455) b
  let n := a ++ b ++ c
  n ++ twistAll (o.drop 623) n (n.drop 396)

/-- `twistAll` is as long as the shortest of its lists. -/
theorem twistAll_length (xs x1s ms : List Word) :
    (twistAll xs x1s ms).length = min xs.length (min x1s.length ms.length) := by
  induction xs generalizing x1s ms with
  | nil => simp [twistAll]
  | cons x xs ih =>
    cases x1s with
    | nil => simp [twistAll]
    | cons y ys =>
      cases ms with
      | nil => simp [twistAll]
      | cons m ms => simp [twistAll, ih]

/-- A regeneration keeps the array's size (rule R20). -/
theorem regenWords_length (o : List Word) (h : o.length = 624) : (regenWords o).length = 624 := by
  simp [regenWords, twistAll_length, h]

/-- The array `REGEN` leaves (rules R101, R102). -/
def regenArray (a : StateArray) : StateArray :=
  ⟨(regenWords a.toList).toArray, by simpa using regenWords_length a.toList (by simp)⟩

/-- `REGEN()`: all 624 words, and `REGENCNT` (rule R101). It reads no word where there is none (rule R22). -/
def regen (s : State) : Except Fault State :=
  match s.array with
  | none => .error .readOfNoValue
  | some a => .ok { s with array := some (regenArray a), regencnt := s.regencnt + 1#32 }

/-! ### Tempering and extraction (rules R110, R111) -/

/-- `B_MASK` (rule R7). -/
def temperB : Word := 0x9D2C5680#32

/-- `C_MASK` (rule R7). -/
def temperC : Word := 0xEFC60000#32

/-- `TEMPER(y)`: a pure function of the word (rule R111). -/
def temper (y : Word) : Word :=
  let y1 := y ^^^ (y >>> 11)
  let y2 := y1 ^^^ ((y1 <<< 7) &&& temperB)
  let y3 := y2 ^^^ ((y2 <<< 15) &&& temperC)
  y3 ^^^ (y3 >>> 18)

/-- `state[cursor]`: one word, no side effect (rules R21, R54); a fault of the model where the array holds no value (rule R22). -/
def readAtCursor (s : State) : Except Fault Word :=
  match s.array with
  | none => .error .readOfNoValue
  | some a => .ok a[s.cursor]

/-- `cursor <- (cursor + 1) mod 624` and `DRAWCNT <- trunc32(DRAWCNT + 1)` (rule R110); the sum in `Fin 624` wraps from 623 to 0. -/
def advance (s : State) : State := { s with cursor := s.cursor + 1, drawcnt := s.drawcnt + 1#32 }

/-- The first two lines of `EXTRACT`: regenerate exactly when the cursor is 0 (rules R100, R110). -/
def regenIfPrimed (s : State) : Except Fault State :=
  if s.cursor = 0 then regen s else .ok s

/-- `EXTRACT()`: the tempered word and the state after the draw (rule R110). -/
def extract (s : State) : Except Fault (Word × State) :=
  match regenIfPrimed s with
  | .error e => .error e
  | .ok t =>
    match readAtCursor t with
    | .error e => .error e
    | .ok y => .ok (temper y, advance t)

/-! ### How a command ends (rules R72, R160, R165) -/

/-- The code of a fault in the field `ST` (rule R160). -/
def faultCode : FaultKind → BitVec 8
  | .illegal => 0x01#8
  | .unseeded => 0x02#8
  | .range => 0x03#8
  | .cpRange => 0x04#8

/-- The response word: `ST` in bits 39:32, `RESULT` in bits 31:0; `OK` is 0x00 and a fault's `RESULT` is 0 (rule R72). -/
def Response.toWord : Response → ResponseWord
  | .ok v => 0x00#8 ++ v
  | .fault k => faultCode k ++ 0#32

/-- Return one response to the host (rule R72). -/
def respond (r : Response) (s : State) : State := { s with responses := s.responses ++ [r] }

/-- `raise X`: set the sticky flag of `X`, respond with its code, and change nothing else (rule R165). This is the block's whole
exception entry: there is no handler, no saved state and no return from it (rules R165, R168). -/
def raiseFault (k : FaultKind) (s : State) : State := respond (.fault k) (setFlag k s)

/-- A draw that ends its command with the value `f z` of the tempered word `z` (rules R118, R130, R131). -/
def drawThenRespond (f : Word → Word) (s : State) : Host.Outcome State Fault Refusal :=
  match extract s with
  | .ok (z, t) => .next (respond (.ok (f z)) t)
  | .error e => .fault e

/-! ### Reset and the host's side of the port (rules R180, R181, R190) -/

/-- Reset: every element of the block takes its reset value, whatever it held; no response is returned (rules R36, R180). The host's
queued moves and the responses it already has are the host's, not the block's. -/
def assertReset (s : State) : State := { State.reset with host := s.host, responses := s.responses }

/-- The host's next moves are `ms`, before the ones already queued (rule R190). -/
def queueMoves (ms : List HostMove) (s : State) : State := { s with host := ms ++ s.host }

end Sys2Proof.Machine
end

