-- ==== Sys2Proof/Machine/Cipher.lean ====
section
/-! DEFINITION. The per-character cipher commands (rules R130, R131). -/

namespace Sys2Proof.Machine

/-- What `ENC` and `DEC` share: `UNSEEDED` before `CPRANGE`; then one draw gives the shift, and `f` the shifted code point
(rules R130, R131, R133). -/
def cipherChar (f : Word → Word → Word) (c : Word) (s : State) : Host.Outcome State Fault Refusal :=
  if s.seeded = false then .next (raiseFault .unseeded s)
  else if isCodePoint c = false then .next (raiseFault .cpRange s)
  else drawThenRespond (fun z => f c (shiftOf z)) s

/-- `ENC c`: the code point plus the shift, modulo `CP_MODULUS` (rule R130). -/
def execEnc (c : Word) (s : State) : Host.Outcome State Fault Refusal := cipherChar cpAdd c s

/-- `DEC c`: the code point minus the shift, modulo `CP_MODULUS` (rule R131). -/
def execDec (c : Word) (s : State) : Host.Outcome State Fault Refusal := cipherChar cpSub c s

end Sys2Proof.Machine
end

