-- ==== Sys2Proof/Machine/Draw.lean ====
section
/-! DEFINITION. The bounded draw (rule R118). -/

namespace Sys2Proof.Machine

/-- `NEXTINT lo, hi`: `UNSEEDED` before `RANGE`; then one draw, rescaled (rules R118, R162, R163). -/
def execNextint (lo hi : Word) (s : State) : Host.Outcome State Fault Refusal :=
  if s.seeded = false then .next (raiseFault .unseeded s)
  else if hi.toNat < lo.toNat then .next (raiseFault .range s)
  else drawThenRespond (fun z => rescale z lo hi) s

end Sys2Proof.Machine
end

