-- ==== Sys2Proof/Machine/Seeding.lean ====
section
/-! DEFINITION. The seeding command (rule R90). -/

namespace Sys2Proof.Machine

/-- `SEED n`: fill the array, cursor 0, `SEEDED` 1, both counters 0, the fault flags kept; legal in every state; no draw, no
regeneration (rules R90, R91, R92). -/
def execSeed (n : Word) (s : State) : Host.Outcome State Fault Refusal :=
  .next (respond (.ok 0#32)
    { s with array := some (seedFill n), cursor := 0, seeded := true, drawcnt := 0#32, regencnt := 0#32 })

end Sys2Proof.Machine
end

