-- ==== Sys2Proof/Machine/System.lean ====
section
/-! DEFINITION. The system command (rule R150). -/

namespace Sys2Proof.Machine

/-- `RDSR sr`: respond with the register and change nothing (rules R55, R150). An index above 3 is no command of the map, so the term
takes the `ILLEGAL` fault, as its word does (rules R56, R76; log entry 13). -/
def execRdsr (sr : Word) (s : State) : Host.Outcome State Fault Refusal :=
  match statusRegister sr s with
  | some v => .next (respond (.ok v) s)
  | none => .next (raiseFault .illegal s)

end Sys2Proof.Machine
end

