-- ==== Sys2Proof/Machine/Dispatch.lean ====
section
/-! DEFINITION. One arm per command, each one call of its meaning. -/

namespace Sys2Proof.Machine

/-- The complete execution of one decoded command (rule R5). -/
def exec (i : Instr) (s : State) : Host.Outcome State Fault Refusal :=
  match i with
  | .seed n => Sys2Proof.Machine.execSeed n s
  | .nextint lo hi => Sys2Proof.Machine.execNextint lo hi s
  | .enc c => Sys2Proof.Machine.execEnc c s
  | .dec c => Sys2Proof.Machine.execDec c s
  | .rdsr sr => Sys2Proof.Machine.execRdsr sr s

end Sys2Proof.Machine
end

