-- ==== Sys2Proof/Machine/Step.lean ====
section
/-! DEFINITION. One step: the host's next move, taken whole (rules R5, R58, R190). -/

namespace Sys2Proof.Machine

/-- One step of the block. The next move of the host is taken off its list; a legal command word is executed, an illegal one raises
`ILLEGAL` (rules R75, R161), a reset resets (rule R180). With no move to take the engine, which never acts on its own (rule R5), stays
as it is (log entry 6). -/
def step (s : State) : Host.Outcome State Fault Refusal :=
  match s.host with
  | [] => .next s
  | .reset :: rest => .next (assertReset { s with host := rest })
  | .command w :: rest =>
    match decode w with
    | .ok i => exec i { s with host := rest }
    | .error _ => .next (raiseFault .illegal { s with host := rest })

/-- The host's next move is the command word that the opcode table numbers as `w` (log entry 7). -/
def State.withFetchWord (s : State) (nbits w : Nat) : State :=
  queueMoves [.command (tableWord nbits w)] s

end Sys2Proof.Machine
end

