-- ==== Sys2Proof/Machine/Message.lean ====
section
/-! DEFINITION. Whole messages: sequences of commands, `Encrypt` and `Decrypt` as the host sends them, and the word sequence `OUT(n, k)`
(rules R80, R113, R135, R136). -/

namespace Sys2Proof.Machine

/-- Execute commands one after the other, in issue order (rule R58). -/
def sendAll : List Instr → State → Host.Outcome State Fault Refusal
  | [], s => .next s
  | i :: is, s =>
    match exec i s with
    | .next t => sendAll is t
    | .fault r => .fault r
    | .refused r => .refused r

/-- The command words a host sends for a list of commands. -/
def movesOf (is : List Instr) : List HostMove := is.map fun i => .command (encode i)

/-- `Encrypt(text, key)`: `SEED key`, then one `ENC` per character, in order (rules R80, R135). -/
def encryptMessage (key : Word) (text : List Word) : List Instr := .seed key :: text.map .enc

/-- `Decrypt(text, key)`: `SEED key`, then one `DEC` per character, in order (rules R80, R136). -/
def decryptMessage (key : Word) (text : List Word) : List Instr := .seed key :: text.map .dec

/-- The word the `(k+1)`-th `EXTRACT` from `s` returns, `none` where the array holds no value. -/
def nthDraw : Nat → State → Option Word
  | 0, s =>
    match extract s with
    | .ok (z, _) => some z
    | .error _ => none
  | k + 1, s =>
    match extract s with
    | .ok (_, t) => nthDraw k t
    | .error _ => none

/-- The state `SEED n` leaves from reset, apart from the response. -/
def seededState (n : Word) : State := { State.reset with array := some (seedFill n), seeded := true }

/-- `OUT(n, k)`: the word returned by the `k`-th `EXTRACT` after `SEED n`, `k` = 1, 2, ... (rule R113). -/
def out (n : Word) : Nat → Option Word
  | 0 => none
  | k + 1 => nthDraw k (seededState n)

end Sys2Proof.Machine
end

