-- ==== Sys2Proof/Machine/Assembler.lean ====
section
/-! DEFINITION. The assembler: source lines, their command words, and the text of a line (rules R79 to R81; log entry 16). It is a tool
of the host; the block never sees a source line. -/

namespace Sys2Proof.Machine

/-- One source line: the five commands, the directive `.reset` (rule R79) and the four pseudo-instructions (rule R80). Operands are
integers as written. -/
inductive SourceLine where
  | seed (n : Int)
  | nextint (lo hi : Int)
  | enc (c : Int)
  | dec (c : Int)
  | rdsr (sr : Int)
  | draw
  | shift
  | encrypt (key : Int) (text : List Int)
  | decrypt (key : Int) (text : List Int)
  | reset
deriving DecidableEq, Repr

/-- The operand of `SEED`: any integer, reduced to `k mod 2^32` (rules R81, R93). -/
def seedOperand (k : Int) : Word := BitVec.ofNat 32 (k % 4294967296).toNat

/-- Every other operand must already be in 0 .. 2^32 - 1, or the assembler rejects the line (rule R81). -/
def wordOperand (k : Int) : Option Word :=
  if 0 ≤ k ∧ k < 4294967296 then some (BitVec.ofNat 32 k.toNat) else none

/-- The operands of a list of characters, rejected if one is. -/
def wordOperands : List Int → Option (List Word)
  | [] => some []
  | k :: ks =>
    match wordOperand k, wordOperands ks with
    | some w, some ws => some (w :: ws)
    | _, _ => none

/-- The commands a line other than `.reset` stands for (rules R79, R80). -/
def lineCommands : SourceLine → Option (List Instr)
  | .seed n => some [.seed (seedOperand n)]
  | .nextint lo hi =>
    match wordOperand lo, wordOperand hi with
    | some a, some b => some [.nextint a b]
    | _, _ => none
  | .enc c => (wordOperand c).map fun a => [.enc a]
  | .dec c => (wordOperand c).map fun a => [.dec a]
  | .rdsr sr => (wordOperand sr).map fun a => [.rdsr a]
  | .draw => some [.nextint 0#32 0xFFFFFFFF#32]
  | .shift => some [.nextint 1#32 4#32]
  | .encrypt key text => (wordOperands text).map fun ws => encryptMessage (seedOperand key) ws
  | .decrypt key text => (wordOperands text).map fun ws => decryptMessage (seedOperand key) ws
  | .reset => some []

/-- The host moves of a line: one command word per command, or the assertion of reset; `none` where the assembler rejects it
(rules R79 to R81). -/
def assemble (l : SourceLine) : Option (List HostMove) :=
  match l with
  | .reset => some [.reset]
  | l => (lineCommands l).map movesOf

/-- The host moves of a program, rejected if one line is. -/
def assembleAll : List SourceLine → Option (List HostMove)
  | [] => some []
  | l :: ls =>
    match assemble l, assembleAll ls with
    | some ms, some ns => some (ms ++ ns)
    | _, _ => none

/-! ### The text of a line (rule R79) -/

/-- What a line is made of: a name or number, a character literal, a string, a comma. -/
inductive Token where
  | name (cs : List Char)
  | char (c : Char)
  | text (cs : List Char)
  | comma
deriving DecidableEq, Repr

/-- The name read so far, if any, as a token in front of the others. -/
def closeName (acc : List Char) (ts : List Token) : List Token :=
  match acc with
  | [] => ts
  | _ => .name acc.reverse :: ts

/-- The part of a string before its closing quote and the part after it, `none` where it is not closed. DESIGN CHOICE (log entry 16; rule
R80 only shows a text between quotes): every character up to the next quote is text, blanks and `;` included, with no escapes. -/
def splitQuote : List Char → Option (List Char × List Char)
  | [] => none
  | c :: cs =>
    if c = '"' then some ([], cs)
    else
      match splitQuote cs with
      | some (a, b) => some (c :: a, b)
      | none => none

/-- The tokens of a line; `acc` is the name being read, backwards. A comment runs from `;` to the end (rule R79). DESIGN CHOICE, safe for
the block (log entry 16; rule R79 is silent): a `;` inside a string or a character literal is text and starts no comment; only a space and
a tab are blanks; a comma, a quote and a `;` end the name before them, so that no blank is needed there (`ENC'A'` is `ENC 'A'`); the
character of a literal may be any one, `'` included; a literal or string that is not closed is a syntax error. The first argument
bounds the number of characters left. -/
def lexLine : Nat → List Char → List Char → Option (List Token)
  | 0, _, acc => some (closeName acc [])
  | _, [], acc => some (closeName acc [])
  | fuel + 1, c :: cs, acc =>
    if c = ';' then some (closeName acc [])
    else if c = ' ' ∨ c = '\t' then (lexLine fuel cs []).map (closeName acc)
    else if c = ',' then (lexLine fuel cs []).map fun ts => closeName acc (.comma :: ts)
    else if c = '\'' then
      match cs with
      | x :: q :: rest => if q = '\'' then (lexLine fuel rest []).map fun ts => closeName acc (.char x :: ts) else none
      | _ => none
    else if c = '"' then
      match splitQuote cs with
      | some (a, rest) => (lexLine fuel rest []).map fun ts => closeName acc (.text a :: ts)
      | none => none
    else lexLine fuel cs (c :: acc)

/-- The value of a decimal or hexadecimal digit; both cases of `A` to `F` are read, a DESIGN CHOICE (log entry 16). -/
def digitValue (c : Char) : Option Nat :=
  let n := c.toNat
  if 48 ≤ n ∧ n ≤ 57 then some (n - 48)
  else if 65 ≤ n ∧ n ≤ 70 then some (n - 55)
  else if 97 ≤ n ∧ n ≤ 102 then some (n - 87)
  else none

/-- Digits in a base, after the value read so far. -/
def readDigits (base : Nat) : Nat → List Char → Option Nat
  | v, [] => some v
  | v, c :: cs =>
    match digitValue c with
    | some d => if d < base then readDigits base (v * base + d) cs else none
    | none => none

/-- An unsigned literal: hexadecimal after `0x`, decimal otherwise (rule R79). DESIGN CHOICE (log entry 16): at least one digit
follows `0x`, and leading zeros are allowed and leave the base as it is. -/
def readNat : List Char → Option Nat
  | [] => none
  | ['0', 'x'] => none
  | '0' :: 'x' :: cs => readDigits 16 0 cs
  | cs => readDigits 10 0 cs

/-- An integer literal (rules R79, R81). DESIGN CHOICE (log entry 16): a negative one is written with `-` right before the literal, in either
base; there is no `+`. -/
def readInt : List Char → Option Int
  | '-' :: cs => (readNat cs).map fun n => -(n : Int)
  | cs => (readNat cs).map fun n => (n : Int)

/-- A status register by name, or any operand as an integer (rule R79). -/
def readStatusName (cs : List Char) : Option Int :=
  if cs = ['S', 'T', 'A', 'T', 'U', 'S'] then some 0
  else if cs = ['C', 'U', 'R', 'S', 'O', 'R'] then some 1
  else if cs = ['D', 'R', 'A', 'W', 'C', 'N', 'T'] then some 2
  else if cs = ['R', 'E', 'G', 'E', 'N', 'C', 'N', 'T'] then some 3
  else readInt cs

/-- The characters of a string as code points, blanks included (a DESIGN CHOICE, log entry 16). -/
def codePoints (cs : List Char) : List Int := cs.map fun c => (c.toNat : Int)

/-- A line from its tokens: outer `none` is a syntax error, inner `none` a line with nothing on it (rules R79, R80). DESIGN CHOICE (log entry
16): a blank line and a comment line are no command, and a line with an operand too many or too few is a syntax error. -/
def parseTokens : List Token → Option (Option SourceLine)
  | [] => some none
  | [.name m] =>
    if m = ['D', 'R', 'A', 'W'] then some (some .draw)
    else if m = ['S', 'H', 'I', 'F', 'T'] then some (some .shift)
    else if m = ['.', 'r', 'e', 's', 'e', 't'] then some (some .reset)
    else none
  | [.name m, .name a] =>
    if m = ['S', 'E', 'E', 'D'] then (readInt a).map fun n => some (.seed n)
    else if m = ['E', 'N', 'C'] then (readInt a).map fun n => some (.enc n)
    else if m = ['D', 'E', 'C'] then (readInt a).map fun n => some (.dec n)
    else if m = ['R', 'D', 'S', 'R'] then (readStatusName a).map fun n => some (.rdsr n)
    else none
  | [.name m, .char x] =>
    if m = ['E', 'N', 'C'] then some (some (.enc (x.toNat : Int)))
    else if m = ['D', 'E', 'C'] then some (some (.dec (x.toNat : Int)))
    else none
  | [.name m, .name a, .comma, .name b] =>
    if m = ['N', 'E', 'X', 'T', 'I', 'N', 'T'] then
      match readInt a, readInt b with
      | some x, some y => some (some (.nextint x y))
      | _, _ => none
    else none
  | [.name m, .name a, .comma, .text t] =>
    if m = ['E', 'N', 'C', 'R', 'Y', 'P', 'T'] then (readInt a).map fun k => some (.encrypt k (codePoints t))
    else if m = ['D', 'E', 'C', 'R', 'Y', 'P', 'T'] then (readInt a).map fun k => some (.decrypt k (codePoints t))
    else none
  | _ => none

/-- A line of text, without its line end (rule R79; log entry 16). -/
def parseLine (cs : List Char) : Option (Option SourceLine) :=
  match lexLine cs.length cs [] with
  | some ts => parseTokens ts
  | none => none

end Sys2Proof.Machine
end

