-- ==== Sys2Proof/Safety.lean ====
section
/-! DEFINITION. The terms the claims use: the invariants of a state, the loop of rule R101 as the spec writes it, the preconditions of a
fault-free command sequence (rule R170), and when a run has gone wrong (rule R191). -/

namespace Sys2Proof

open Sys2Proof.Machine

/-- The invariant of a state. The array holds values exactly when `SEEDED` is 1 (rules R22, R27), and until then the cursor and the
counters are where reset left them (rule R36). -/
structure StateInv (s : State) : Prop where
  /-- The array holds values exactly when `SEEDED` is 1. -/
  array_iff : s.array.isSome = s.seeded
  /-- Before the first `SEED` the cursor and both counters are 0. -/
  unseeded : s.seeded = false → s.cursor = 0 ∧ s.drawcnt = 0#32 ∧ s.regencnt = 0#32

/-- The relation between the cursor and the counters while no counter has wrapped (rule R152). -/
def CountersAgree (s : State) : Prop :=
  s.cursor.val = s.drawcnt.toNat % 624 ∧
    s.regencnt.toNat = if s.drawcnt.toNat = 0 then 0 else (s.drawcnt.toNat - 1) / 624 + 1

/-- The rows of the opcode map as the spec prints them: mask and match (rule R74). -/
def opcodeRows : List (CommandWord × CommandWord) :=
  [(0xFF00000000FFFFFFFF#72, 0x010000000000000000#72), (0xFF0000000000000000#72, 0x020000000000000000#72),
    (0xFF00000000FFFFFFFF#72, 0x030000000000000000#72), (0xFF00000000FFFFFFFF#72, 0x040000000000000000#72),
    (0xFFFFFFFFFCFFFFFFFF#72, 0x050000000000000000#72)]

/-- The new word in the single-assignment form of rule R103, from the three words an iteration reads. -/
def regenWord (x x1 m : Word) : Word :=
  m ^^^ (((x &&& 0x80000000#32) ||| (x1 &&& 0x7FFFFFFF#32)) >>> 1) ^^^ (if x1.getLsbD 0 then 0x9908B0DF#32 else 0#32)

/-- One iteration of the loop of rule R101, on the array as it stands when the iteration begins; the index sums wrap modulo 624. -/
def regenLoopStep (a : StateArray) (i : Fin 624) : StateArray :=
  let y := (a[i] &&& 0x80000000#32) ||| (a[i + 1] &&& 0x7FFFFFFF#32)
  let v := a[i + 397] ^^^ (y >>> 1)
  a.set i (if y.getLsbD 0 then v ^^^ 0x9908B0DF#32 else v)

/-- The loop of rule R101: in place, `i` ascending from 0 to 623. -/
def regenLoop (a : StateArray) : StateArray := (List.finRange 624).foldl regenLoopStep a

/-- The array the next draw reads: regenerated first when the cursor is 0 (rule R110). -/
def arrayForDraw (a : StateArray) (c : Fin 624) : StateArray := if c = 0 then regenArray a else a

/-- The tempered word the next draw returns from the array `a` at cursor `c` (rules R110, R111). -/
def drawnWord (a : StateArray) (c : Fin 624) : Word := temper (arrayForDraw a c)[c]

/-- `REGENCNT` after the next draw (rules R30, R100). -/
def regencntAfterDraw (s : State) : Word := if s.cursor = 0 then s.regencnt + 1#32 else s.regencnt

/-- The commands that draw (rule R27). -/
def draws : Instr → Bool
  | .seed _ => false
  | .nextint _ _ => true
  | .enc _ => true
  | .dec _ => true
  | .rdsr _ => false

/-- What rule R170 asks of one command: a legal encoding, `A <= B` in `NEXTINT`, a code point in `ENC` and `DEC`. -/
def operandsGood : Instr → Bool
  | .seed _ => true
  | .nextint lo hi => decide (lo.toNat ≤ hi.toNat)
  | .enc c => decide (c.toNat < 0x110000)
  | .dec c => decide (c.toNat < 0x110000)
  | .rdsr sr => decide (sr.toNat < 4)

/-- What rule R170 asks of a sequence, started with `SEEDED` at `seeded`: good operands, and a `SEED` before the first draw. -/
def sequenceGood : Bool → List Instr → Bool
  | _, [] => true
  | _, .seed _ :: is => sequenceGood true is
  | seeded, i :: is => operandsGood i && (seeded || !draws i) && sequenceGood seeded is

/-- Whether a response reports a fault: `ST` is not `OK` (rules R72, R191). -/
def isFaultResponse : Response → Bool
  | .ok _ => false
  | .fault _ => true

/-- `STATUS` bits 7:4 are not all zero (rule R191). -/
def anyFlag (s : State) : Bool := s.fIllegal || s.fUnseeded || s.fRange || s.fCp

/-- The state of the generator is the same: array, cursor, `SEEDED` and both counters. -/
structure SameGenerator (s t : State) : Prop where
  array : s.array = t.array
  cursor : s.cursor = t.cursor
  seeded : s.seeded = t.seeded
  drawcnt : s.drawcnt = t.drawcnt
  regencnt : s.regencnt = t.regencnt

/-- The four sticky flags are the same. -/
structure SameFlags (s t : State) : Prop where
  illegal : s.fIllegal = t.fIllegal
  unseeded : s.fUnseeded = t.fUnseeded
  range : s.fRange = t.fRange
  cpRange : s.fCp = t.fCp

end Sys2Proof
end

