-- ==== Sys2Proof/Certificates/Slice0/Obligations.lean ====
section
/-! DEFINITION. The statements for the provers. Each docstring names the rule of the spec it formalises. -/

open Sys2Proof Sys2Proof.Machine

/-! ### Encoding (30_encoding.md) -/

/-- Words of 30_encoding.md (worked encodings) and 95_test_vectors.md section 2.8 decode as listed there. -/
def Obligations.DecodeOfListedWords : Prop :=
  decode 0x010000000500000000#72 = .ok (.seed 5#32) ∧
  decode 0x01FFFFFFFF00000000#72 = .ok (.seed 0xFFFFFFFF#32) ∧
  decode 0x020000000400000001#72 = .ok (.nextint 4#32 1#32) ∧
  decode 0x0200000000FFFFFFFF#72 = .ok (.nextint 0#32 0xFFFFFFFF#32) ∧
  decode 0x030000004100000000#72 = .ok (.enc 0x41#32) ∧
  decode 0x030011000000000000#72 = .ok (.enc 0x110000#32) ∧
  decode 0x040000004200000000#72 = .ok (.dec 0x42#32) ∧
  decode 0x050000000300000000#72 = .ok (.rdsr 3#32) ∧
  decode 0x010000000500000001#72 = .error (.bNotZero 0x01#8 1#32) ∧
  decode 0x050000000400000000#72 = .error (.noStatusRegister 4#32) ∧
  decode 0x000000000000000000#72 = .error (.unknownOp 0x00#8) ∧
  decode 0x060000000000000000#72 = .error (.unknownOp 0x06#8) ∧
  decode 0xFFFFFFFFFFFFFFFFFF#72 = .error (.unknownOp 0xFF#8)

/-- Decoding the word of a well-formed instruction gives the instruction back, with every operand (rules R70, R73, R74). -/
def Obligations.DecodeEncodeRoundTrip : Prop :=
  ∀ i : Instr, i.wellFormed = true → decode (encode i) = .ok i

/-- A word that decodes is the word of the instruction it decodes to, which is well formed: one legal word per operation and
operands (decision D15). -/
def Obligations.DecodedWordIsTheEncoding : Prop :=
  ∀ (w : CommandWord) (i : Instr), decode w = .ok i → i.wellFormed = true ∧ encode i = w

/-- The opcode map: a word is a command exactly when it matches that command's row, its operands are its fields, and at most one row
matches it (rule R74). -/
def Obligations.DecodeFollowsOpcodeMap : Prop :=
  ∀ w : CommandWord,
    (∀ n, decode w = .ok (.seed n) ↔
      w &&& 0xFF00000000FFFFFFFF#72 = 0x010000000000000000#72 ∧ n = w.extractLsb' 32 32) ∧
    (∀ lo hi, decode w = .ok (.nextint lo hi) ↔
      w &&& 0xFF0000000000000000#72 = 0x020000000000000000#72 ∧ lo = w.extractLsb' 32 32 ∧ hi = w.extractLsb' 0 32) ∧
    (∀ c, decode w = .ok (.enc c) ↔
      w &&& 0xFF00000000FFFFFFFF#72 = 0x030000000000000000#72 ∧ c = w.extractLsb' 32 32) ∧
    (∀ c, decode w = .ok (.dec c) ↔
      w &&& 0xFF00000000FFFFFFFF#72 = 0x040000000000000000#72 ∧ c = w.extractLsb' 32 32) ∧
    (∀ sr, decode w = .ok (.rdsr sr) ↔
      w &&& 0xFFFFFFFFFCFFFFFFFF#72 = 0x050000000000000000#72 ∧ sr = w.extractLsb' 32 32) ∧
    (opcodeRows.filter fun r => w &&& r.1 = r.2).length ≤ 1

/-- A word that matches no row raises `ILLEGAL` and does nothing else, in every state; every word with `OP` 0x00 or 0x06 .. 0xFF is
such a word; and every word is one of the five commands or illegal (rule R75). -/
def Obligations.UnmatchedWordRaisesIllegal : Prop :=
  (∀ (s : State) (w : CommandWord) (rest : List HostMove), s.host = .command w :: rest →
    (∀ r ∈ opcodeRows, w &&& r.1 ≠ r.2) →
    step s = .next { s with host := rest, fIllegal := true, responses := s.responses ++ [.fault .illegal] }) ∧
  (∀ w : CommandWord, ((w.extractLsb' 64 8).toNat = 0 ∨ 6 ≤ (w.extractLsb' 64 8).toNat) →
    ∀ r ∈ opcodeRows, w &&& r.1 ≠ r.2) ∧
  (∀ w : CommandWord, (∃ i, decode w = .ok i) ∨ ∀ r ∈ opcodeRows, w &&& r.1 ≠ r.2)

/-- The must-be-zero fields are checked on the encoding alone, before every check on state or operand values: in every state, a
non-zero `B` under `OP` 0x01, 0x03, 0x04 or 0x05, or an `RDSR` index above 3, raises `ILLEGAL` and nothing else (rule R76). -/
def Obligations.NonzeroFieldRaisesIllegal : Prop :=
  ∀ (s : State) (op : BitVec 8) (a b : Word) (rest : List HostMove), s.host = .command (op ++ a ++ b) :: rest →
    ((op.toNat = 1 ∨ op.toNat = 3 ∨ op.toNat = 4 ∨ op.toNat = 5) ∧ b ≠ 0#32) ∨ (op.toNat = 5 ∧ 3 < a.toNat) →
    step s = .next { s with host := rest, fIllegal := true, responses := s.responses ++ [.fault .illegal] }

/-! ### The step and the port -/

/-- When the host's next move is a command word that decodes to a well-formed instruction, the step is the execution of that
instruction on the state with the move taken off the host's list (rules R5, R58; the list is the model's own, log entry 1). -/
def Obligations.StepRunsDecodedCommand : Prop :=
  ∀ (s : State) (w : CommandWord) (rest : List HostMove) (i : Instr),
    s.host = .command w :: rest → decode w = .ok i → i.wellFormed = true →
    step s = exec i { s with host := rest }

/-- With no move of the host to take, the engine stays as it is (rule R5: it never acts on its own; log entry 6). -/
def Obligations.IdleStepChangesNothing : Prop :=
  ∀ s : State, s.host = [] → step s = .next s

/-- Reset gives every element of the block its reset value, with no response; it is the only step that clears `SEEDED` or a fault flag;
and the block starts in the reset state (rule R180). -/
def Obligations.ResetMoveResetsEverything : Prop :=
  (∀ (s : State) (rest : List HostMove), s.host = .reset :: rest →
    ∃ t, step s = .next t ∧ t.array = none ∧ t.cursor.val = 0 ∧ t.seeded = false ∧ t.fIllegal = false ∧
      t.fUnseeded = false ∧ t.fRange = false ∧ t.fCp = false ∧ t.drawcnt = 0#32 ∧ t.regencnt = 0#32 ∧
      t.host = rest ∧ t.responses = s.responses) ∧
  (∀ s t : State, step s = .next t → s.host.head? ≠ some .reset →
    (s.seeded = true → t.seeded = true) ∧ ∀ k, flag k s = true → flag k t = true) ∧
  Sys2Proof.core.reset = State.reset

/-- The reset state (rule R36). -/
def Obligations.ResetStateIsTheSpecs : Prop :=
  State.reset.array = none ∧ State.reset.cursor.val = 0 ∧ State.reset.seeded = false ∧
  State.reset.fIllegal = false ∧ State.reset.fUnseeded = false ∧ State.reset.fRange = false ∧ State.reset.fCp = false ∧
  State.reset.drawcnt = 0#32 ∧ State.reset.regencnt = 0#32

/-- Every command word, legal or not, produces exactly one response; its bits are `ST * 2^32 + RESULT`, with `ST` 0 for `OK` and 1 to 4
for the faults, and `RESULT` 0 for a fault and for `SEED` (rules R72, R160). -/
def Obligations.OneResponsePerCommand : Prop :=
  (∀ (s t : State) (w : CommandWord) (rest : List HostMove), s.host = .command w :: rest → step s = .next t →
    ∃ r, t.responses = s.responses ++ [r] ∧
      ((∃ n, decode w = .ok (.seed n)) → r = .ok 0#32)) ∧
  (∀ v : Word, (Response.ok v).toWord.toNat = 0 * 2 ^ 32 + v.toNat) ∧
  (Response.fault .illegal).toWord.toNat = 1 * 2 ^ 32 ∧ (Response.fault .unseeded).toWord.toNat = 2 * 2 ^ 32 ∧
  (Response.fault .range).toWord.toNat = 3 * 2 ^ 32 ∧ (Response.fault .cpRange).toWord.toNat = 4 * 2 ^ 32

/-- Commands take effect one at a time in issue order: running the block on the words of well-formed commands is executing the commands
one after the other (rule R58; the host's list is the model's own, log entry 1). -/
def Obligations.CommandsRunInIssueOrder : Prop :=
  ∀ (is : List Instr) (s : State) (rest : List HostMove), (∀ i ∈ is, i.wellFormed = true) →
    Host.Core.run Sys2Proof.core is.length { s with host := movesOf is ++ rest } = sendAll is { s with host := rest }

/-! ### Invariants -/

/-- The reset state has the invariant. -/
def Obligations.ResetHasInvariant : Prop := StateInv State.reset

/-- Every step keeps the invariant: the array holds values exactly while `SEEDED` is 1, and before the first `SEED` the cursor and the
counters are 0 (rules R22, R27, R36). -/
def Obligations.StepKeepsInvariant : Prop :=
  ∀ s t : State, StateInv s → step s = .next t → StateInv t

/-- From every state with the invariant the block answers: no command word stops the machine (rule R190: every word has a defined
outcome; rule R22: an unwritten word is never read). -/
def Obligations.StepAnswersFromInvariant : Prop :=
  ∀ s : State, StateInv s → ∃ t, step s = .next t

/-- The cursor and the counters stay related as rule R152 says, as long as `DRAWCNT` does not wrap in this step. -/
def Obligations.StepKeepsCountersAgree : Prop :=
  ∀ s t : State, CountersAgree s → s.drawcnt ≠ 0xFFFFFFFF#32 → step s = .next t → CountersAgree t

/-- A draw on an array that holds no value is a fault of the model, never a value (rule R22; such a state has `SEEDED` 1 and no array,
and no run reaches it). -/
def Obligations.DrawWithoutValuesStops : Prop :=
  ∀ (s : State) (i : Instr), s.seeded = true → s.array = none → draws i = true → operandsGood i = true →
    exec i s = .fault .readOfNoValue

/-! ### Seeding (40_seed.md) -/

/-- `SEED n` completes in every state, with the whole next state (rule R90). -/
def Obligations.SeedCompletes : Prop :=
  ∀ (n : Word) (s : State), exec (.seed n) s = .next
    { s with
      array := some (seedFill n), cursor := 0, seeded := true, drawcnt := 0#32, regencnt := 0#32,
      responses := s.responses ++ [.ok 0#32] }

/-- The array after `SEED n`, word by word in exact arithmetic, and the cursor (rule R91). -/
def Obligations.SeedFillsByRecurrence : Prop :=
  ∀ (n : Word) (s : State), ∃ t a, exec (.seed n) s = .next t ∧ t.array = some a ∧ t.cursor.val = 0 ∧
    a[0] = n ∧
    ∀ (i : Nat) (h1 : 1 ≤ i) (h : i < 624),
      a[i].toNat = 1812433253 * a[i - 1].toNat % 2 ^ 32 ^^^ (a[i - 1].toNat / 2 ^ 30 + i)

/-- The closed forms of the first words (rule R94). -/
def Obligations.SeedFirstWords : Prop :=
  (∀ (n : Word) (s : State), ∃ t a, exec (.seed n) s = .next t ∧ t.array = some a ∧ a[0] = n ∧
    a[1].toNat = 1812433253 * n.toNat % 2 ^ 32 ^^^ (n.toNat / 2 ^ 30 + 1)) ∧
  (∀ s : State, ∃ t a, exec (.seed 0#32) s = .next t ∧ t.array = some a ∧ a[1] = 1#32 ∧ a[2] = 0x6C078967#32) ∧
  (∀ s : State, ∃ t a, exec (.seed 0x80000000#32) s = .next t ∧ t.array = some a ∧ a[1] = 0x80000003#32)

/-- `SEED` is independent of history: whatever commands come before it, it leaves the array, the cursor and the counters it leaves from
reset, and the fault flags as they were; a second `SEED n` changes none of them (rule R92). -/
def Obligations.SeedIgnoresHistory : Prop :=
  ∀ (m n : Word) (is : List Instr) (s t : State), sendAll (.seed m :: is) s = .next t →
    ∃ u r v, exec (.seed n) t = .next u ∧ exec (.seed n) State.reset = .next r ∧ exec (.seed n) u = .next v ∧
      SameGenerator u r ∧ SameFlags u t ∧ SameGenerator v u ∧ SameFlags v u

/-- The frame of `SEED`: the four fault flags and the host's moves are unchanged (rules R28, R90). -/
def Obligations.SeedFrame : Prop :=
  ∀ (n : Word) (s t : State), exec (.seed n) s = .next t → SameFlags t s ∧ t.host = s.host

/-! ### Regeneration (41_regen.md) -/

/-- A draw with the cursor at 0 leaves the array that the in-place ascending loop of rule R101 makes of the old one, counts one
regeneration, and touches neither `SEEDED` nor a fault flag; it cannot fault. -/
def Obligations.PrimedDrawRunsTheLoop : Prop :=
  ∀ (i : Instr) (s : State) (a : StateArray), draws i = true → operandsGood i = true → s.seeded = true →
    s.array = some a → s.cursor = 0 →
    ∃ t, exec i s = .next t ∧ t.array = some (regenLoop a) ∧ t.regencnt.toNat = (s.regencnt.toNat + 1) % 2 ^ 32 ∧
      t.seeded = s.seeded ∧ SameFlags t s

/-- Which value each read of a regeneration sees, index by index: new words 0 .. 226 from old words, 227 .. 622 from old words `i` and
`i + 1` and new word `i - 227`, and 623 from old word 623 and new words 0 and 396 (rule R102). -/
def Obligations.RegenerationReadsOldOrNew : Prop :=
  ∀ (i : Instr) (s t : State) (old : StateArray), draws i = true → operandsGood i = true → s.seeded = true →
    s.array = some old → s.cursor = 0 → exec i s = .next t →
    ∃ new : StateArray, t.array = some new ∧
      (∀ (j : Nat) (h : j < 227), new[j] = regenWord old[j] old[j + 1] old[j + 397]) ∧
      (∀ (j : Nat) (h1 : 227 ≤ j) (h : j < 623), new[j] = regenWord old[j] old[j + 1] (new[j - 227]'(by omega))) ∧
      new[623] = regenWord old[623] new[0] new[396]

/-- Regeneration happens exactly when a draw finds the cursor at 0, and after each extraction the cursor advances by 1 modulo 624; `SEED`,
`RDSR` and faulted commands never regenerate, whatever the cursor is (rule R25). -/
def Obligations.RegeneratesExactlyWhenPrimed : Prop :=
  (∀ (i : Instr) (s t : State), exec i s = .next t →
    s.cursor.val < 624 ∧
    (draws i = true → (∃ v, t.responses = s.responses ++ [.ok v]) →
      t.cursor.val = (s.cursor.val + 1) % 624 ∧
      (s.cursor.val = 0 → t.array = s.array.map regenLoop ∧ t.regencnt = s.regencnt + 1#32) ∧
      (s.cursor.val ≠ 0 → t.array = s.array ∧ t.regencnt = s.regencnt)) ∧
    (∀ k, t.responses = s.responses ++ [.fault k] → t.array = s.array ∧ t.regencnt = s.regencnt) ∧
    (∀ sr, i = .rdsr sr → t.array = s.array ∧ t.regencnt = s.regencnt) ∧
    (∀ n, i = .seed n → t.array = some (seedFill n) ∧ t.regencnt = 0#32)) ∧
  (∀ (s t : State) (w : CommandWord) (rest : List HostMove) (e : Illegal), s.host = .command w :: rest →
    decode w = .error e → step s = .next t → t.array = s.array ∧ t.regencnt = s.regencnt ∧ t.cursor = s.cursor)

/-- The phases: reset and `SEED` enter primed; a draw at cursor 0 enters draining at cursor 1; at 1 .. 622 it stays in draining; at 623 it
enters primed (rule R26). -/
def Obligations.PhaseTransitions : Prop :=
  primed State.reset = true ∧
  (∀ (n : Word) (s t : State), exec (.seed n) s = .next t → primed t = true) ∧
  (∀ (i : Instr) (s t : State) (v : Word), draws i = true → exec i s = .next t → t.responses = s.responses ++ [.ok v] →
    (primed s = true → t.cursor.val = 1 ∧ primed t = false) ∧
    (1 ≤ s.cursor.val → s.cursor.val ≤ 622 → t.cursor.val = s.cursor.val + 1 ∧ primed t = false) ∧
    (s.cursor.val = 623 → t.cursor.val = 0 ∧ primed t = true))

/-! ### Extraction and the bounded draw (42_extract_nextint.md) -/

/-- `NEXTINT lo, hi` with `lo <= hi` on a seeded block completes, with the whole next state (rules R110, R118). -/
def Obligations.NextintCompletes : Prop :=
  ∀ (lo hi : Word) (s : State) (a : StateArray), s.seeded = true → s.array = some a → lo.toNat ≤ hi.toNat →
    exec (.nextint lo hi) s = .next
      { s with
        array := some (arrayForDraw a s.cursor), cursor := s.cursor + 1, drawcnt := s.drawcnt + 1#32,
        regencnt := regencntAfterDraw s,
        responses := s.responses ++ [.ok (rescale (drawnWord a s.cursor) lo hi)] }

/-- The corner cases of `NEXTINT`: a degenerate range gives its one value and still draws, and the full range gives the tempered word
itself (rules R115, R118). -/
def Obligations.NextintCornerRanges : Prop :=
  ∀ (lo : Word) (s : State) (a : StateArray), s.seeded = true → s.array = some a →
    (∃ t, exec (.nextint lo lo) s = .next t ∧ t.responses = s.responses ++ [.ok lo] ∧
      t.drawcnt.toNat = (s.drawcnt.toNat + 1) % 2 ^ 32 ∧ t.cursor.val = (s.cursor.val + 1) % 624) ∧
    (∃ t, exec (.nextint 0#32 0xFFFFFFFF#32) s = .next t ∧ t.responses = s.responses ++ [.ok (drawnWord a s.cursor)])

/-- `TEMPER`, step by step on numbers; truncating the left shifts before or after the masks gives the same word (rule R111). -/
def Obligations.TemperStepByStep : Prop :=
  (∀ y : Word, ∃ y1 y2 y3 : Nat,
    y1 = y.toNat ^^^ y.toNat / 2 ^ 11 ∧
    y2 = y1 ^^^ (y1 * 2 ^ 7 % 2 ^ 32 &&& 0x9D2C5680) ∧ y2 = y1 ^^^ (y1 * 2 ^ 7 &&& 0x9D2C5680) ∧
    y3 = y2 ^^^ (y2 * 2 ^ 15 % 2 ^ 32 &&& 0xEFC60000) ∧ y3 = y2 ^^^ (y2 * 2 ^ 15 &&& 0xEFC60000) ∧
    (temper y).toNat = y3 ^^^ y3 / 2 ^ 18) ∧
  temper 0#32 = 0#32

/-- `RESCALE` is exact integer arithmetic, rounded down, with divisor 2^32 - 1; the result is in the range and fits in 32 bits
(rule R114). -/
def Obligations.RescaleIsExact : Prop :=
  ∀ y lo hi : Word, lo.toNat ≤ hi.toNat →
    (rescale y lo hi).toNat = lo.toNat + y.toNat * (hi.toNat - lo.toNat) / 4294967295 ∧
    y.toNat * (hi.toNat - lo.toNat) < 2 ^ 64 ∧
    y.toNat * (hi.toNat - lo.toNat) / 4294967295 ≤ hi.toNat - lo.toNat ∧
    lo.toNat ≤ (rescale y lo hi).toNat ∧ (rescale y lo hi).toNat ≤ hi.toNat

/-- The properties of `RESCALE`: range, monotone, ends, the top value is rare, degenerate range, full range (rule R115). -/
def Obligations.RescaleProperties : Prop :=
  (∀ y lo hi : Word, lo.toNat ≤ hi.toNat → lo.toNat ≤ (rescale y lo hi).toNat ∧ (rescale y lo hi).toNat ≤ hi.toNat) ∧
  (∀ y y' lo hi : Word, lo.toNat ≤ hi.toNat → y.toNat ≤ y'.toNat → (rescale y lo hi).toNat ≤ (rescale y' lo hi).toNat) ∧
  (∀ lo hi : Word, lo.toNat ≤ hi.toNat → rescale 0#32 lo hi = lo ∧ rescale 0xFFFFFFFF#32 lo hi = hi) ∧
  (∀ y lo hi : Word, lo.toNat < hi.toNat → rescale y lo hi = hi → y = 0xFFFFFFFF#32) ∧
  (∀ y lo : Word, rescale y lo lo = lo) ∧
  (∀ y : Word, rescale y 0#32 0xFFFFFFFF#32 = y)

/-- The cipher's shift: both quotients, the ranges of tempered words that give 1, 2, 3 and 4, and how many words give each value
(rule R116). -/
def Obligations.ShiftTable : Prop :=
  (∀ y : Word, shiftOf y = rescale y 1#32 4#32 ∧ (shiftOf y).toNat = 1 + 3 * y.toNat / 4294967295 ∧
    (shiftOf y).toNat = 1 + y.toNat / 1431655765) ∧
  (∀ y : Word,
    (shiftOf y).toNat =
      if y.toNat ≤ 0x55555554 then 1 else if y.toNat ≤ 0xAAAAAAA9 then 2 else if y.toNat ≤ 0xFFFFFFFE then 3 else 4) ∧
  (∀ v : Nat, ((Finset.range (2 ^ 32)).filter fun y => (shiftOf (BitVec.ofNat 32 y)).toNat = v).card =
    if v = 1 ∨ v = 2 ∨ v = 3 then 1431655765 else if v = 4 then 1 else 0)

/-- Determinism: after `SEED n` and any commands that are not `SEED`, `k` of which drew and were answered `OK`, the next draw returns
`OUT(n, k + 1)`, whatever those commands were and whatever came before the `SEED`; the draws are counted in the responses, so `k` has no
bound, and `DRAWCNT` is `k` modulo 2^32; and the value the rule prints for `OUT(0, 1)` (rule R113). -/
def Obligations.DrawsDependOnSeedAndCount : Prop :=
  (∀ (n : Word) (is : List Instr) (s t : State), (∀ i ∈ is, ∀ m, i ≠ .seed m) → sendAll (.seed n :: is) s = .next t →
    ∃ (rs : List Response) (k : Nat) (w : Word) (u : State),
      t.responses = s.responses ++ .ok 0#32 :: rs ∧ rs.length = is.length ∧
      k = ((is.zip rs).countP fun p => draws p.1 && !isFaultResponse p.2) ∧ t.drawcnt.toNat = k % 2 ^ 32 ∧
      out n (k + 1) = some w ∧ exec (.nextint 0#32 0xFFFFFFFF#32) t = .next u ∧ u.responses = t.responses ++ [.ok w]) ∧
  out 0#32 1 = some 2479041101#32

/-! ### The cipher (43_cipher.md) -/

/-- `ENC c` of a code point on a seeded block completes, with the whole next state (rule R130). -/
def Obligations.EncCompletes : Prop :=
  ∀ (c : Word) (s : State) (a : StateArray), s.seeded = true → s.array = some a → c.toNat < 0x110000 →
    exec (.enc c) s = .next
      { s with
        array := some (arrayForDraw a s.cursor), cursor := s.cursor + 1, drawcnt := s.drawcnt + 1#32,
        regencnt := regencntAfterDraw s,
        responses := s.responses ++
          [.ok (BitVec.ofNat 32 ((c.toNat + (rescale (drawnWord a s.cursor) 1#32 4#32).toNat) % 0x110000))] }

/-- `DEC c` of a code point on a seeded block completes, with the whole next state (rule R131). -/
def Obligations.DecCompletes : Prop :=
  ∀ (c : Word) (s : State) (a : StateArray), s.seeded = true → s.array = some a → c.toNat < 0x110000 →
    exec (.dec c) s = .next
      { s with
        array := some (arrayForDraw a s.cursor), cursor := s.cursor + 1, drawcnt := s.drawcnt + 1#32,
        regencnt := regencntAfterDraw s,
        responses := s.responses ++
          [.ok (BitVec.ofInt 32 (((c.toNat : Int) - ((rescale (drawnWord a s.cursor) 1#32 4#32).toNat : Int)) % 0x110000))] }

/-- Code-point arithmetic wraps at the ends of the code-point space: which case holds, for which characters, and that the response is
again a code point (rule R132). -/
def Obligations.CodePointsWrap : Prop :=
  ∀ (c : Word) (s t : State) (r : Word), c.toNat < 0x110000 → t.responses = s.responses ++ [.ok r] →
    (exec (.enc c) s = .next t → ∃ (a : StateArray) (shift : Nat), s.array = some a ∧
      shift = (rescale (drawnWord a s.cursor) 1#32 4#32).toNat ∧ 1 ≤ shift ∧ shift ≤ 4 ∧
      (c.toNat + shift < 0x110000 → r.toNat = c.toNat + shift) ∧
      (0x110000 ≤ c.toNat + shift → r.toNat = c.toNat + shift - 0x110000 ∧ 0x110000 - 4 ≤ c.toNat) ∧
      r.toNat < 0x110000) ∧
    (exec (.dec c) s = .next t → ∃ (a : StateArray) (shift : Nat), s.array = some a ∧
      shift = (rescale (drawnWord a s.cursor) 1#32 4#32).toNat ∧ 1 ≤ shift ∧ shift ≤ 4 ∧
      (shift ≤ c.toNat → r.toNat = c.toNat - shift) ∧
      (c.toNat < shift → r.toNat = c.toNat + 0x110000 - shift ∧ c.toNat ≤ 3) ∧
      r.toNat < 0x110000)

/-- The shift of `ENC` and `DEC` is the value `NEXTINT 1, 4` returns at the same point of the stream; it lies in 1 .. 4, does not depend on
the character, and all three leave the same generator (rule R133). -/
def Obligations.ShiftIsNextintOneFour : Prop :=
  ∀ (c : Word) (s t : State) (v : Word), c.toNat < 0x110000 → exec (.nextint 1#32 4#32) s = .next t →
    t.responses = s.responses ++ [.ok v] →
    1 ≤ v.toNat ∧ v.toNat ≤ 4 ∧
    (∃ u, exec (.enc c) s = .next u ∧ u.responses = s.responses ++ [.ok (cpAdd c v)] ∧ SameGenerator u t) ∧
    (∃ u, exec (.dec c) s = .next u ∧ u.responses = s.responses ++ [.ok (cpSub c v)] ∧ SameGenerator u t)

/-- `Encrypt(text, key)` in closed form, from every state: character `j` is `(c_j + shift_j) mod CP_MODULUS` with
`shift_j = RESCALE(OUT(key, j + 1), 1, 4)` (rule R135). -/
def Obligations.EncryptClosedForm : Prop :=
  ∀ (key : Word) (text : List Word) (s : State), (∀ c ∈ text, c.toNat < 0x110000) →
    ∃ (t : State) (w : Nat → Word), (∀ j < text.length, out key (j + 1) = some (w j)) ∧
      sendAll (encryptMessage key text) s = .next t ∧
      t.responses = s.responses ++ .ok 0#32 :: text.zipIdx.map fun p =>
        .ok (BitVec.ofNat 32 ((p.1.toNat + (rescale (w p.2) 1#32 4#32).toNat) % 0x110000))

/-- `Decrypt(text, key)` in closed form, from every state, with the same shifts (rule R136). -/
def Obligations.DecryptClosedForm : Prop :=
  ∀ (key : Word) (text : List Word) (s : State), (∀ c ∈ text, c.toNat < 0x110000) →
    ∃ (t : State) (w : Nat → Word), (∀ j < text.length, out key (j + 1) = some (w j)) ∧
      sendAll (decryptMessage key text) s = .next t ∧
      t.responses = s.responses ++ .ok 0#32 :: text.zipIdx.map fun p =>
        .ok (BitVec.ofInt 32 (((p.1.toNat : Int) - ((rescale (w p.2) 1#32 4#32).toNat : Int)) % 0x110000))

/-- The round trip: from every state, enciphering a text of code points and deciphering the result with the same key gives the text back,
and so does the other order (rule R137). -/
def Obligations.CipherRoundTrip : Prop :=
  ∀ (key : Word) (text : List Word) (s : State), (∀ c ∈ text, c.toNat < 0x110000) →
    (∃ (t u : State) (mid : List Word), sendAll (encryptMessage key text) s = .next t ∧
      t.responses = s.responses ++ .ok 0#32 :: mid.map .ok ∧
      sendAll (decryptMessage key mid) t = .next u ∧ u.responses = t.responses ++ .ok 0#32 :: text.map .ok) ∧
    (∃ (t u : State) (mid : List Word), sendAll (decryptMessage key text) s = .next t ∧
      t.responses = s.responses ++ .ok 0#32 :: mid.map .ok ∧
      sendAll (encryptMessage key mid) t = .next u ∧ u.responses = t.responses ++ .ok 0#32 :: text.map .ok)

/-- The output has exactly as many characters as the text; the empty text is the single command `SEED k`, with no draw and no
regeneration (rule R138). -/
def Obligations.MessageLength : Prop :=
  (∀ (key : Word) (text : List Word) (s : State), (∀ c ∈ text, c.toNat < 0x110000) →
    (∃ t out, sendAll (encryptMessage key text) s = .next t ∧ t.responses = s.responses ++ .ok 0#32 :: out ∧
      out.length = text.length ∧ ∀ r ∈ out, isFaultResponse r = false) ∧
    (∃ t out, sendAll (decryptMessage key text) s = .next t ∧ t.responses = s.responses ++ .ok 0#32 :: out ∧
      out.length = text.length ∧ ∀ r ∈ out, isFaultResponse r = false)) ∧
  (∀ (key : Word) (s : State), encryptMessage key [] = [.seed key] ∧ decryptMessage key [] = [.seed key] ∧
    ∃ t, sendAll (encryptMessage key []) s = .next t ∧ t.responses = s.responses ++ [.ok 0#32] ∧
      t.drawcnt.toNat = 0 ∧ t.regencnt.toNat = 0 ∧ t.cursor.val = 0)

/-- The frame of the drawing commands: the host's moves and `SEEDED` are unchanged; the only flags a command may set are its own faults';
a draining draw leaves the array and `REGENCNT`; a faulted command leaves the whole generator (rules R110, R118, R130, R131, R165). -/
def Obligations.DrawFrame : Prop :=
  ∀ (i : Instr) (s t : State), draws i = true → exec i s = .next t →
    t.host = s.host ∧ t.seeded = s.seeded ∧ t.fIllegal = s.fIllegal ∧
    (s.seeded = true → t.fUnseeded = s.fUnseeded) ∧
    (∀ lo hi, i = .nextint lo hi → t.fCp = s.fCp ∧ (lo.toNat ≤ hi.toNat → t.fRange = s.fRange)) ∧
    (∀ c, i = .enc c ∨ i = .dec c → t.fRange = s.fRange ∧ (c.toNat < 0x110000 → t.fCp = s.fCp)) ∧
    (s.cursor.val ≠ 0 → t.array = s.array ∧ t.regencnt = s.regencnt) ∧
    (∀ k, t.responses = s.responses ++ [.fault k] → SameGenerator t s)

/-! ### The system command and the status registers (44_system.md, 10_state.md) -/

/-- `RDSR sr` with an index 0 .. 3 completes in every state: the response is the register, and nothing else changes (rule R150). -/
def Obligations.RdsrCompletes : Prop :=
  ∀ (s : State) (sr : Word), sr.toNat < 4 →
    exec (.rdsr sr) s = .next
      { s with
        responses := s.responses ++
          [.ok (if sr.toNat = 0 then
              BitVec.ofNat 32 (s.seeded.toNat + (decide (s.cursor.val = 0)).toNat * 2 + s.fIllegal.toNat * 16 +
                s.fUnseeded.toNat * 32 + s.fRange.toNat * 64 + s.fCp.toNat * 128)
            else if sr.toNat = 1 then BitVec.ofNat 32 s.cursor.val
            else if sr.toNat = 2 then s.drawcnt else s.regencnt)] }

/-- The fields of the status registers: `STATUS` bit by bit with its reserved bits 0, `CURSOR` with its reserved bits 0, and what `STATUS`
reads after reset and just after the first `SEED` (rule R31). -/
def Obligations.StatusRegisterFields : Prop :=
  (∀ (s t : State) (v : Word), exec (.rdsr 0#32) s = .next t → t.responses = s.responses ++ [.ok v] →
    v.getLsbD 0 = s.seeded ∧ v.getLsbD 1 = decide (s.cursor.val = 0) ∧ v.getLsbD 2 = false ∧ v.getLsbD 3 = false ∧
    v.getLsbD 4 = s.fIllegal ∧ v.getLsbD 5 = s.fUnseeded ∧ v.getLsbD 6 = s.fRange ∧ v.getLsbD 7 = s.fCp ∧
    ∀ b, 8 ≤ b → b ≤ 31 → v.getLsbD b = false) ∧
  (∀ (s t : State) (v : Word), exec (.rdsr 1#32) s = .next t → t.responses = s.responses ++ [.ok v] →
    (v.extractLsb' 0 10).toNat = s.cursor.val ∧ ∀ b, 10 ≤ b → b ≤ 31 → v.getLsbD b = false) ∧
  (∀ (s t : State) (v : Word), exec (.rdsr 2#32) s = .next t → t.responses = s.responses ++ [.ok v] → v = s.drawcnt) ∧
  (∀ (s t : State) (v : Word), exec (.rdsr 3#32) s = .next t → t.responses = s.responses ++ [.ok v] → v = s.regencnt) ∧
  (∃ t, exec (.rdsr 0#32) State.reset = .next t ∧ t.responses = [.ok 2#32]) ∧
  (∀ n : Word, ∃ t, sendAll [.seed n, .rdsr 0#32] State.reset = .next t ∧ t.responses = [.ok 0#32, .ok 3#32])

/-- The frame of `RDSR`: no field of the block changes but, for an index above 3, the flag of the `ILLEGAL` fault (rules R55, R150). -/
def Obligations.RdsrFrame : Prop :=
  ∀ (sr : Word) (s t : State), exec (.rdsr sr) s = .next t →
    SameGenerator t s ∧ t.host = s.host ∧ t.fUnseeded = s.fUnseeded ∧ t.fRange = s.fRange ∧ t.fCp = s.fCp ∧
    (sr.toNat < 4 → t.fIllegal = s.fIllegal)

/-- The counters: 0 after reset and after `SEED`; each successful drawing command adds one to `DRAWCNT`, modulo 2^32, and one to
`REGENCNT` exactly if it regenerates; nothing else changes them (rule R30). -/
def Obligations.CountersCountDraws : Prop :=
  State.reset.drawcnt.toNat = 0 ∧ State.reset.regencnt.toNat = 0 ∧
  (∀ (i : Instr) (s t : State), exec i s = .next t →
    (∀ n, i = .seed n → t.drawcnt.toNat = 0 ∧ t.regencnt.toNat = 0) ∧
    (draws i = true → (∃ v, t.responses = s.responses ++ [.ok v]) →
      t.drawcnt.toNat = (s.drawcnt.toNat + 1) % 2 ^ 32 ∧
      t.regencnt.toNat = if s.cursor.val = 0 then (s.regencnt.toNat + 1) % 2 ^ 32 else s.regencnt.toNat) ∧
    (∀ k, t.responses = s.responses ++ [.fault k] → t.drawcnt = s.drawcnt ∧ t.regencnt = s.regencnt) ∧
    (∀ sr, i = .rdsr sr → t.drawcnt = s.drawcnt ∧ t.regencnt = s.regencnt)) ∧
  (∀ (s t : State) (w : CommandWord) (rest : List HostMove) (e : Illegal), s.host = .command w :: rest →
    decode w = .error e → step s = .next t → t.drawcnt = s.drawcnt ∧ t.regencnt = s.regencnt)

/-- After `SEED` and `k` successful draws, `k < 2^32`: `DRAWCNT = k`, `CURSOR = k mod 624`, and `REGENCNT` is 0 for `k = 0` and
`((k - 1) div 624) + 1` otherwise (rule R152). -/
def Obligations.CountersAfterDraws : Prop :=
  ∀ (n : Word) (is : List Instr) (s : State), (∀ i ∈ is, draws i = true ∧ operandsGood i = true) → is.length < 2 ^ 32 →
    ∃ t, sendAll (.seed n :: is) s = .next t ∧ t.drawcnt.toNat = is.length ∧ t.cursor.val = is.length % 624 ∧
      t.regencnt.toNat = if is.length = 0 then 0 else (is.length - 1) / 624 + 1

/-! ### Faults (60_exceptions.md) -/

/-- A fault sets its own sticky flag, returns its code with `RESULT` 0, and changes nothing else (rule R165). -/
def Obligations.FaultChangesOnlyItsFlag : Prop :=
  (∀ (s t : State) (w : CommandWord) (rest : List HostMove) (k : FaultKind),
    s.host = .command w :: rest → step s = .next t → t.responses = s.responses ++ [.fault k] →
    flag k t = true ∧ (∀ j, j ≠ k → flag j t = flag j s) ∧ SameGenerator t s ∧ t.host = rest) ∧
  (∀ k : FaultKind, (Response.fault k).toWord = faultCode k ++ 0#32)

/-- Exactly one fault is raised, the first in the order `ILLEGAL`, `UNSEEDED`, `RANGE` or `CPRANGE`, and only its flag is set; where no
condition holds, none is (rule R166). -/
def Obligations.FaultPriority : Prop :=
  ∀ (s t : State) (w : CommandWord) (rest : List HostMove), s.host = .command w :: rest → step s = .next t →
    ((∃ e, decode w = .error e) → t.responses = s.responses ++ [.fault .illegal]) ∧
    (∀ i, decode w = .ok i → draws i = true → s.seeded = false → t.responses = s.responses ++ [.fault .unseeded]) ∧
    (∀ lo hi, decode w = .ok (.nextint lo hi) → s.seeded = true → hi.toNat < lo.toNat →
      t.responses = s.responses ++ [.fault .range]) ∧
    (∀ c, decode w = .ok (.enc c) ∨ decode w = .ok (.dec c) → s.seeded = true → 0x110000 ≤ c.toNat →
      t.responses = s.responses ++ [.fault .cpRange]) ∧
    (∀ i, decode w = .ok i → (draws i = true → s.seeded = true) → operandsGood i = true →
      ∃ v, t.responses = s.responses ++ [.ok v]) ∧
    (∀ k, t.responses = s.responses ++ [.fault k] → ∀ j, flag j t = (flag j s || decide (j = k)))

/-- `UNSEEDED`: raised by `NEXTINT`, `ENC` and `DEC` exactly when `SEEDED` is 0; `SEED` and `RDSR` never raise it (rule R162). -/
def Obligations.UnseededFault : Prop :=
  (∀ (i : Instr) (s : State), draws i = true → s.seeded = false →
    exec i s = .next { s with fUnseeded := true, responses := s.responses ++ [.fault .unseeded] }) ∧
  (∀ (i : Instr) (s t : State), exec i s = .next t → t.responses = s.responses ++ [.fault .unseeded] →
    draws i = true ∧ s.seeded = false)

/-- `RANGE`: raised by `NEXTINT` when `A > B` on a seeded block, with no draw and no value; no other command raises it (rule R163). -/
def Obligations.RangeFault : Prop :=
  (∀ (lo hi : Word) (s : State), s.seeded = true → hi.toNat < lo.toNat →
    exec (.nextint lo hi) s = .next { s with fRange := true, responses := s.responses ++ [.fault .range] }) ∧
  (∀ (i : Instr) (s t : State), exec i s = .next t → t.responses = s.responses ++ [.fault .range] →
    ∃ lo hi, i = .nextint lo hi ∧ hi.toNat < lo.toNat)

/-- `CPRANGE`: raised by `ENC` and `DEC` of a number at or above `CP_MODULUS` on a seeded block, with no draw; for an input below it the
response is a code point, never a fault (rules R134, R164). -/
def Obligations.CodePointFault : Prop :=
  (∀ (c : Word) (s : State), s.seeded = true → 0x110000 ≤ c.toNat →
    exec (.enc c) s = .next { s with fCp := true, responses := s.responses ++ [.fault .cpRange] } ∧
    exec (.dec c) s = .next { s with fCp := true, responses := s.responses ++ [.fault .cpRange] }) ∧
  (∀ (i : Instr) (s t : State), exec i s = .next t → t.responses = s.responses ++ [.fault .cpRange] →
    ∃ c, (i = .enc c ∨ i = .dec c) ∧ 0x110000 ≤ c.toNat) ∧
  (∀ (c : Word) (i : Instr) (s t : State), i = .enc c ∨ i = .dec c → s.seeded = true → c.toNat < 0x110000 →
    exec i s = .next t → ∃ r, t.responses = s.responses ++ [.ok r] ∧ r.toNat < 0x110000)

/-- After a fault the next command word runs exactly as if the faulted one had not been sent, except that the sticky flag is now 1 and the
fault's response stands before its own; `RDSR STATUS` is the one command whose own response can show the flag, and it reads the status word
the fault left (rule R168). -/
def Obligations.FaultedCommandLeavesNoTrace : Prop :=
  ∀ (s t u : State) (w w' : CommandWord) (rest : List HostMove) (k : FaultKind),
    s.host = .command w :: .command w' :: rest → step s = .next t → t.responses = s.responses ++ [.fault k] →
    step { s with host := .command w' :: rest } = .next u →
    ∃ (v : State) (r q : Response), step t = .next v ∧ u.responses = s.responses ++ [r] ∧
      v.responses = s.responses ++ [.fault k, q] ∧
      (decode w' ≠ .ok (.rdsr 0#32) → q = r) ∧ (decode w' = .ok (.rdsr 0#32) → q = .ok (statusWord t)) ∧
      SameGenerator v u ∧ v.host = u.host ∧ ∀ f, flag f v = (flag f u || decide (f = k))

/-- A command sequence that obeys the preconditions never faults, from every state with the invariant (rule R170). -/
def Obligations.GoodSequenceNeverFaults : Prop :=
  ∀ (is : List Instr) (s : State), StateInv s → sequenceGood s.seeded is = true →
    ∃ t rs, sendAll is s = .next t ∧ t.responses = s.responses ++ rs ∧ rs.length = is.length ∧
      (∀ r ∈ rs, isFaultResponse r = false) ∧ SameFlags t s

/-- A run has gone wrong, some response of it being a fault, exactly when some fault flag is set at its end, for a run of command words
without reset from a state with no flag set (rule R191). -/
def Obligations.FlagsTellWhetherRunWentWrong : Prop :=
  ∀ (ms : List HostMove) (s t : State), (∀ m ∈ ms, m ≠ .reset) → anyFlag s = false → s.host = ms →
    Host.Core.run Sys2Proof.core ms.length s = .next t →
    ∃ rs, t.responses = s.responses ++ rs ∧ rs.length = ms.length ∧
      (anyFlag t = true ↔ ∃ r ∈ rs, isFaultResponse r = true)

/-! ### The assembler (30_encoding.md section 6) -/

/-- The operand of `SEED` may be any integer and is reduced modulo 2^32; every other operand is taken as it stands where it is in
0 .. 2^32 - 1, and is rejected elsewhere; the conditions the block checks are not checked (rule R81). -/
def Obligations.AssemblerOperands : Prop :=
  (∀ k : Int, ∃ n : Word, assemble (.seed k) = some [.command (encode (.seed n))] ∧ (n.toNat : Int) = k % 4294967296) ∧
  (∀ a b : Word, assemble (.nextint a.toNat b.toNat) = some [.command (encode (.nextint a b))] ∧
    assemble (.enc a.toNat) = some [.command (encode (.enc a))] ∧
    assemble (.dec a.toNat) = some [.command (encode (.dec a))] ∧
    assemble (.rdsr a.toNat) = some [.command (encode (.rdsr a))]) ∧
  (∀ a b : Int, (a < 0 ∨ 4294967296 ≤ a) →
    assemble (.nextint a b) = none ∧ assemble (.nextint b a) = none ∧ assemble (.enc a) = none ∧
    assemble (.dec a) = none ∧ assemble (.rdsr a) = none)

/-- The expansions of the pseudo-instructions, for a text of code points (rule R80). -/
def Obligations.PseudoInstructionExpansions : Prop :=
  assemble .draw = assemble (.nextint 0 0xFFFFFFFF) ∧ assemble .shift = assemble (.nextint 1 4) ∧
  (∀ (key : Int) (text : List Word),
    assemble (.encrypt key (text.map fun c => (c.toNat : Int))) =
      assembleAll (.seed key :: text.map fun c => .enc (c.toNat : Int)) ∧
    assemble (.decrypt key (text.map fun c => (c.toNat : Int))) =
      assembleAll (.seed key :: text.map fun c => .dec (c.toNat : Int))) ∧
  (∀ key : Int, assemble (.encrypt key []) = assemble (.seed key))

/-- Lines of the worked encodings, as text, assemble to the command words printed there (rules R79 to R81, section 6 of 30_encoding.md; the
reading of spaces and signs is the model's, log entry 16). -/
def Obligations.WorkedEncodings : Prop :=
  (∀ l ∈ [
    (['S', 'E', 'E', 'D', ' ', '5'], 0x010000000500000000#72),
    (['S', 'E', 'E', 'D', ' ', '-', '1'], 0x01FFFFFFFF00000000#72),
    (['S', 'E', 'E', 'D', ' ', '4', '2', '9', '4', '9', '6', '7', '3', '0', '1'], 0x010000000500000000#72),
    (['N', 'E', 'X', 'T', 'I', 'N', 'T', ' ', '1', ',', ' ', '4'], 0x020000000100000004#72),
    (['D', 'R', 'A', 'W'], 0x0200000000FFFFFFFF#72),
    (['E', 'N', 'C', ' ', '\'', 'A', '\''], 0x030000004100000000#72),
    (['D', 'E', 'C', ' ', '\'', 'B', '\''], 0x040000004200000000#72),
    (['R', 'D', 'S', 'R', ' ', 'R', 'E', 'G', 'E', 'N', 'C', 'N', 'T'], 0x050000000300000000#72)],
    ∃ x, parseLine l.1 = some (some x) ∧ assemble x = some [.command l.2]) ∧
  (∃ x, parseLine ['.', 'r', 'e', 's', 'e', 't'] = some (some x) ∧ assemble x = some [.reset])
end

