-- ==== Sys2Proof/Laws/Assembler.lean ====
section
/-! SUPPORT. What the assembler makes of an operand that fits in a word, and of one that does not (rule R81). -/

namespace Sys2Proof.Laws

open Sys2Proof.Machine

/-- A word, as an integer, is in the range the assembler accepts. -/
theorem word_in_range (a : Word) : (0 : Int) ≤ (a.toNat : Int) ∧ (a.toNat : Int) < 4294967296 := by
  have := a.isLt
  exact ⟨by omega, by omega⟩

/-- An operand in range is its low 32 bits. -/
theorem wordOperand_in_range (k : Int) (h : 0 ≤ k ∧ k < 4294967296) :
    wordOperand k = some (BitVec.ofNat 32 k.toNat) := by
  unfold wordOperand
  exact if_pos h

/-- An operand that is a word is taken as it stands. -/
theorem wordOperand_toNat (a : Word) : wordOperand (a.toNat : Int) = some a := by
  rw [wordOperand_in_range _ (word_in_range a), Int.toNat_natCast, BitVec.ofNat_toNat, BitVec.setWidth_eq]

/-- An operand out of range is rejected. -/
theorem wordOperand_out_of_range (k : Int) (h : k < 0 ∨ 4294967296 ≤ k) : wordOperand k = none := by
  unfold wordOperand
  exact if_neg (by omega)

/-- The characters of a text of words are taken as they stand. -/
theorem wordOperands_map (text : List Word) : wordOperands (text.map fun c => (c.toNat : Int)) = some text := by
  induction text with
  | nil => rfl
  | cons a t ih => simp [wordOperands, wordOperand_toNat, ih]

/-- The operand of `SEED` as a number: the integer modulo 2^32. -/
theorem seedOperand_toNat (k : Int) : ((seedOperand k).toNat : Int) = k % 4294967296 := by
  simp only [seedOperand, BitVec.toNat_ofNat]
  omega

/-! A line with its operands accepted. The operands are variables here on purpose: at an operand written `(a.toNat : Int)` an unfolding by
`rfl` makes the kernel compare numbers one by one, so cite these instead. -/

theorem assemble_nextint {x y : Int} {a b : Word} (hx : wordOperand x = some a) (hy : wordOperand y = some b) :
    assemble (.nextint x y) = some [.command (encode (.nextint a b))] := by
  simp [assemble, lineCommands, hx, hy, movesOf]

theorem assemble_enc {x : Int} {a : Word} (hx : wordOperand x = some a) :
    assemble (.enc x) = some [.command (encode (.enc a))] := by
  simp [assemble, lineCommands, hx, movesOf]

theorem assemble_dec {x : Int} {a : Word} (hx : wordOperand x = some a) :
    assemble (.dec x) = some [.command (encode (.dec a))] := by
  simp [assemble, lineCommands, hx, movesOf]

theorem assemble_rdsr {x : Int} {a : Word} (hx : wordOperand x = some a) :
    assemble (.rdsr x) = some [.command (encode (.rdsr a))] := by
  simp [assemble, lineCommands, hx, movesOf]

theorem assemble_encrypt {key : Int} {text : List Int} {ws : List Word} (h : wordOperands text = some ws) :
    assemble (.encrypt key text) = some (movesOf (encryptMessage (seedOperand key) ws)) := by
  simp [assemble, lineCommands, h]

theorem assemble_decrypt {key : Int} {text : List Int} {ws : List Word} (h : wordOperands text = some ws) :
    assemble (.decrypt key text) = some (movesOf (decryptMessage (seedOperand key) ws)) := by
  simp [assemble, lineCommands, h]

end Sys2Proof.Laws
end

