-- ==== Sys2Proof/Laws/Encoding.lean ====
section
/-! SUPPORT. The fields of a command word: taking a word apart and putting it together (rule R70). -/

namespace Sys2Proof

/-- A bit string in front of another is a multiple of a power of two more (rule R72's `st * 2^32 + v`). -/
theorem toNat_append_eq {m n : Nat} (x : BitVec m) (y : BitVec n) : (x ++ y).toNat = x.toNat * 2 ^ n + y.toNat := by
  rw [BitVec.toNat_append, ← Nat.shiftLeft_add_eq_or_of_lt y.isLt, Nat.shiftLeft_eq]

/-- A command word as a number. -/
theorem commandWord_toNat (op : BitVec 8) (a b : Word) :
    (commandWord op a b).toNat = op.toNat * 2 ^ 64 + a.toNat * 2 ^ 32 + b.toNat := by
  have h := toNat_append_eq (op ++ a) b
  rw [toNat_append_eq op a] at h
  have e : (commandWord op a b).toNat = (op ++ a ++ b).toNat := rfl
  omega

theorem opField_toNat (w : CommandWord) : (opField w).toNat = w.toNat / 2 ^ 64 := by
  have h := w.isLt
  simp only [opField, BitVec.extractLsb'_toNat, Nat.shiftRight_eq_div_pow]
  omega

theorem aField_toNat (w : CommandWord) : (aField w).toNat = w.toNat / 2 ^ 32 % 2 ^ 32 := by
  simp only [aField, BitVec.extractLsb'_toNat, Nat.shiftRight_eq_div_pow]

theorem bField_toNat (w : CommandWord) : (bField w).toNat = w.toNat % 2 ^ 32 := by
  simp [bField, BitVec.extractLsb'_toNat]

@[simp] theorem opField_commandWord (op : BitVec 8) (a b : Word) : opField (commandWord op a b) = op := by
  apply BitVec.eq_of_toNat_eq
  rw [opField_toNat, commandWord_toNat]
  have := a.isLt
  have := b.isLt
  omega

@[simp] theorem aField_commandWord (op : BitVec 8) (a b : Word) : aField (commandWord op a b) = a := by
  apply BitVec.eq_of_toNat_eq
  rw [aField_toNat, commandWord_toNat]
  have := a.isLt
  have := b.isLt
  omega

@[simp] theorem bField_commandWord (op : BitVec 8) (a b : Word) : bField (commandWord op a b) = b := by
  apply BitVec.eq_of_toNat_eq
  rw [bField_toNat, commandWord_toNat]
  have := b.isLt
  omega

/-- A word is its three fields (rule R70). -/
theorem commandWord_fields (w : CommandWord) : commandWord (opField w) (aField w) (bField w) = w := by
  apply BitVec.eq_of_toNat_eq
  rw [commandWord_toNat, opField_toNat, aField_toNat, bField_toNat]
  omega

/-- The bitwise AND of two words, field by field. -/
theorem commandWord_and (op op' : BitVec 8) (a a' b b' : Word) :
    commandWord op a b &&& commandWord op' a' b' = commandWord (op &&& op') (a &&& a') (b &&& b') := by
  simp only [commandWord]
  exact (BitVec.and_append (x₁ := op ++ a) (x₂ := op' ++ a') (y₁ := b) (y₂ := b')).trans
    (by rw [BitVec.and_append])

/-- Two words are equal exactly when their fields are. -/
theorem commandWord_inj (op op' : BitVec 8) (a a' b b' : Word) :
    commandWord op a b = commandWord op' a' b' ↔ op = op' ∧ a = a' ∧ b = b' := by
  constructor
  · intro h
    exact ⟨by simpa using congrArg opField h, by simpa using congrArg aField h, by simpa using congrArg bField h⟩
  · rintro ⟨rfl, rfl, rfl⟩
    rfl

theorem and_byteOnes (x : BitVec 8) : x &&& 0xFF#8 = x := BitVec.and_allOnes
theorem and_wordOnes (x : Word) : x &&& 0xFFFFFFFF#32 = x := BitVec.and_allOnes

/-- Format `FA` of the opcode map: its mask keeps `OP` and `B` (rule R74). -/
theorem fits_FA (w : CommandWord) (op : BitVec 8) :
    w &&& 0xFF00000000FFFFFFFF#72 = commandWord op 0#32 0#32 ↔ opField w = op ∧ bField w = 0#32 := by
  have m : 0xFF00000000FFFFFFFF#72 = commandWord 0xFF#8 0#32 0xFFFFFFFF#32 := by decide
  rw [m, ← commandWord_fields w, commandWord_and, commandWord_inj]
  simp [and_byteOnes, and_wordOnes]

/-- Format `FAB` of the opcode map: its mask keeps `OP` (rule R74). -/
theorem fits_FAB (w : CommandWord) (op : BitVec 8) :
    w &&& 0xFF0000000000000000#72 = commandWord op 0#32 0#32 ↔ opField w = op := by
  have m : 0xFF0000000000000000#72 = commandWord 0xFF#8 0#32 0#32 := by decide
  rw [m, ← commandWord_fields w, commandWord_and, commandWord_inj]
  simp [and_byteOnes]

theorem highMask_bits (j : Fin 32) : (0xFFFFFFFC#32)[j.val] = decide (2 ≤ j.val) := by revert j; decide

/-- The bits 31:2 of a word are zero exactly when it is below 4. -/
theorem and_high_eq_zero (a : Word) : a &&& 0xFFFFFFFC#32 = 0#32 ↔ a.toNat < 4 := by
  have e : a &&& 0xFFFFFFFC#32 = (a >>> 2) <<< 2 := by
    ext i hi
    rw [BitVec.getElem_and, highMask_bits ⟨i, hi⟩]
    simp only [BitVec.getElem_shiftLeft]
    by_cases h : 2 ≤ i
    · have e : 2 + (i - 2) = i := by omega
      have n : ¬ i < 2 := by omega
      simp [h, e, n, hi]
    · have n : i < 2 := by omega
      simp [h, n]
  rw [e, ← BitVec.toNat_inj]
  have := a.isLt
  simp only [BitVec.toNat_shiftLeft, BitVec.toNat_ushiftRight, Nat.shiftLeft_eq, Nat.shiftRight_eq_div_pow, BitVec.toNat_ofNat]
  omega

/-- Format `FSR` of the opcode map: its mask keeps all but the two index bits (rule R74). -/
theorem fits_FSR (w : CommandWord) (op : BitVec 8) :
    w &&& 0xFFFFFFFFFCFFFFFFFF#72 = commandWord op 0#32 0#32 ↔
      opField w = op ∧ (aField w).toNat < 4 ∧ bField w = 0#32 := by
  have m : 0xFFFFFFFFFCFFFFFFFF#72 = commandWord 0xFF#8 0xFFFFFFFC#32 0xFFFFFFFF#32 := by decide
  rw [m, ← commandWord_fields w, commandWord_and, commandWord_inj, and_high_eq_zero]
  simp [and_byteOnes, and_wordOnes]

/-- The `match` column of the opcode map as fields (rule R74). -/
theorem rowMatch_words :
    0x010000000000000000#72 = commandWord 0x01#8 0#32 0#32 ∧ 0x020000000000000000#72 = commandWord 0x02#8 0#32 0#32 ∧
    0x030000000000000000#72 = commandWord 0x03#8 0#32 0#32 ∧ 0x040000000000000000#72 = commandWord 0x04#8 0#32 0#32 ∧
    0x050000000000000000#72 = commandWord 0x05#8 0#32 0#32 := by decide

end Sys2Proof
end

