-- ==== Sys2Proof/Laws/Regen.lean ====
section
/-! SUPPORT. Regeneration: the words `regenWords` gives, index by index, and the proof that they are the words the in-place ascending
loop of rule R101 leaves (rules R101, R102, R187). -/

namespace Sys2Proof.Laws

open Sys2Proof.Machine

/-- `twistAll` index by index, inside all three lists. -/
theorem twistAll_getElem? (xs ys ms : List Word) (i : Nat) (x y m : Word)
    (hx : xs[i]? = some x) (hy : ys[i]? = some y) (hm : ms[i]? = some m) :
    (twistAll xs ys ms)[i]? = some (twist x y m) := by
  induction xs generalizing ys ms i with
  | nil => simp at hx
  | cons a xs ih =>
    cases ys with
    | nil => simp at hy
    | cons b ys =>
      cases ms with
      | nil => simp at hm
      | cons c ms =>
        cases i with
        | zero => simp_all [twistAll]
        | succ i => simpa [twistAll] using ih ys ms i (by simpa using hx) (by simpa using hy) (by simpa using hm)

section Words

variable (o : List Word) (h : o.length = 624)

/-- The first 227 new words (rule R102). -/
def newLow : List Word := twistAll (o.take 227) (o.drop 1) (o.drop 397)

/-- New words 227 .. 453 (rule R102). -/
def newMid : List Word := twistAll ((o.drop 227).take 227) (o.drop 228) (newLow o)

/-- New words 454 .. 622 (rule R102). -/
def newHigh : List Word := twistAll ((o.drop 454).take 169) (o.drop 455) (newMid o)

/-- New words 0 .. 622. -/
def newFront : List Word := newLow o ++ newMid o ++ newHigh o

theorem regenWords_eq : regenWords o = newFront o ++ twistAll (o.drop 623) (newFront o) ((newFront o).drop 396) := rfl

include h

theorem newLow_length : (newLow o).length = 227 := by simp [newLow, twistAll_length, h]
theorem newMid_length : (newMid o).length = 227 := by simp [newMid, twistAll_length, h, newLow_length o h]
theorem newHigh_length : (newHigh o).length = 169 := by simp [newHigh, twistAll_length, h, newMid_length o h]
theorem newFront_length : (newFront o).length = 623 := by
  simp [newFront, newLow_length o h, newMid_length o h, newHigh_length o h]

theorem regenWords_front (i : Nat) (hi : i < 623) : (regenWords o)[i]? = (newFront o)[i]? := by
  rw [regenWords_eq, List.getElem?_append_left (by rw [newFront_length o h]; exact hi)]

/-- New words 0 .. 226 from old words only (rule R102). -/
theorem regenWords_low (i : Nat) (hi : i < 227) (x y m : Word) (hx : o[i]? = some x) (hy : o[i + 1]? = some y)
    (hm : o[i + 397]? = some m) : (regenWords o)[i]? = some (twist x y m) := by
  rw [regenWords_front o h i (by omega), newFront, List.append_assoc,
    List.getElem?_append_left (by rw [newLow_length o h]; exact hi)]
  apply twistAll_getElem?
  · rw [List.getElem?_take_of_lt hi]; exact hx
  · rw [List.getElem?_drop, Nat.add_comm]; exact hy
  · rw [List.getElem?_drop, Nat.add_comm]; exact hm

/-- New words 227 .. 622 from old words `i`, `i + 1` and new word `i - 227` (rule R102). -/
theorem regenWords_high (i : Nat) (h1 : 227 ≤ i) (h2 : i < 623) (x y m : Word) (hx : o[i]? = some x)
    (hy : o[i + 1]? = some y) (hm : (regenWords o)[i - 227]? = some m) : (regenWords o)[i]? = some (twist x y m) := by
  have lo := newLow_length o h
  have mi := newMid_length o h
  rw [regenWords_front o h _ (by omega), newFront, List.append_assoc] at hm
  rw [regenWords_front o h i h2, newFront, List.append_assoc, List.getElem?_append_right (by omega), lo]
  by_cases hi : i < 454
  · rw [List.getElem?_append_left (by omega)]
    rw [List.getElem?_append_left (by omega)] at hm
    apply twistAll_getElem?
    · have e : 227 + (i - 227) = i := by omega
      rw [List.getElem?_take_of_lt (by omega), List.getElem?_drop, e]; exact hx
    · have e : 228 + (i - 227) = i + 1 := by omega
      rw [List.getElem?_drop, e]; exact hy
    · exact hm
  · rw [List.getElem?_append_right (by omega), mi]
    rw [List.getElem?_append_right (by omega), lo, List.getElem?_append_left (by omega)] at hm
    apply twistAll_getElem?
    · have e : 454 + (i - 227 - 227) = i := by omega
      rw [List.getElem?_take_of_lt (by omega), List.getElem?_drop, e]; exact hx
    · have e : 455 + (i - 227 - 227) = i + 1 := by omega
      rw [List.getElem?_drop, e]; exact hy
    · exact hm

/-- New word 623 from old word 623 and new words 0 and 396 (rule R102). -/
theorem regenWords_last (x y m : Word) (hx : o[623]? = some x) (hy : (regenWords o)[0]? = some y)
    (hm : (regenWords o)[396]? = some m) : (regenWords o)[623]? = some (twist x y m) := by
  have len := newFront_length o h
  rw [regenWords_front o h _ (by omega)] at hy hm
  rw [regenWords_eq, List.getElem?_append_right (by omega), len]
  apply twistAll_getElem?
  · rw [List.getElem?_drop]; exact hx
  · exact hy
  · rw [List.getElem?_drop]; exact hm

end Words

/-- A word of the regenerated array is the word of the list. -/
theorem regenArray_getElem? (a : StateArray) (i : Nat) (hi : i < 624) :
    (regenWords a.toList)[i]? = some (regenArray a)[i] := by
  have hl : (regenWords a.toList).length = 624 := regenWords_length _ (by simp)
  rw [List.getElem?_eq_getElem (by omega)]
  rfl

theorem toList_getElem? (a : StateArray) (i : Nat) (hi : i < 624) : a.toList[i]? = some a[i] := by
  simp [hi]

/-- Index `i` of the regenerated array for `i` in 0 .. 226 (rule R102). -/
theorem regenArray_low (a : StateArray) (i : Nat) (hi : i < 227) :
    (regenArray a)[i] = twist a[i] a[i + 1] a[i + 397] := by
  have r := regenArray_getElem? a i (by omega)
  rw [regenWords_low a.toList (by simp) i hi a[i] a[i + 1] a[i + 397] (toList_getElem? a i (by omega))
    (toList_getElem? a (i + 1) (by omega)) (toList_getElem? a (i + 397) (by omega))] at r
  exact (Option.some.inj r).symm

/-- Index `i` of the regenerated array for `i` in 227 .. 622 (rule R102). -/
theorem regenArray_high (a : StateArray) (i : Nat) (h1 : 227 ≤ i) (h2 : i < 623) :
    (regenArray a)[i] = twist a[i] a[i + 1] ((regenArray a)[i - 227]'(by omega)) := by
  have r := regenArray_getElem? a i (by omega)
  rw [regenWords_high a.toList (by simp) i h1 h2 a[i] a[i + 1] _ (toList_getElem? a i (by omega))
    (toList_getElem? a (i + 1) (by omega)) (regenArray_getElem? a (i - 227) (by omega))] at r
  exact (Option.some.inj r).symm

/-- Index 623 of the regenerated array (rule R102). -/
theorem regenArray_last (a : StateArray) :
    (regenArray a)[623] = twist a[623] (regenArray a)[0] (regenArray a)[396] := by
  have r := regenArray_getElem? a 623 (by omega)
  rw [regenWords_last a.toList (by simp) a[623] _ _ (toList_getElem? a 623 (by omega))
    (regenArray_getElem? a 0 (by omega)) (regenArray_getElem? a 396 (by omega))] at r
  exact (Option.some.inj r).symm

/-! ### The loop of rule R101 -/

theorem regenLoopStep_eq (a : StateArray) (i : Fin 624) :
    regenLoopStep a i = a.set i (twist a[i] a[i + 1] a[i + 397]) := rfl

/-- The loop over the indices below `k`. -/
def loopTo (a : StateArray) (k : Nat) : StateArray := ((List.finRange 624).take k).foldl regenLoopStep a

theorem loopTo_succ (a : StateArray) (k : Nat) (hk : k < 624) :
    loopTo a (k + 1) = regenLoopStep (loopTo a k) ⟨k, hk⟩ := by
  have e : (List.finRange 624).take (k + 1) = (List.finRange 624).take k ++ [⟨k, hk⟩] := by
    rw [List.take_add_one]
    simp [hk]
  simp [loopTo, e]

/-- Before iteration `k` the words below `k` are the new ones and the others the old ones (rule R102). -/
theorem loopTo_getElem (a : StateArray) (k : Nat) (hk : k ≤ 624) (j : Nat) (hj : j < 624) :
    (loopTo a k)[j] = if j < k then (regenArray a)[j] else a[j] := by
  induction k generalizing j with
  | zero => simp [loopTo]
  | succ k ih =>
    have hk' : k < 624 := by omega
    have ih := ih (by omega)
    rw [loopTo_succ a k hk', regenLoopStep_eq, Vector.getElem_set]
    by_cases e : k = j
    · subst e
      have key : twist (loopTo a k)[k] (loopTo a k)[(⟨k, hk'⟩ + 1 : Fin 624)] (loopTo a k)[(⟨k, hk'⟩ + 397 : Fin 624)]
          = (regenArray a)[k] := by
        have i1 : (⟨k, hk'⟩ + 1 : Fin 624).val = (k + 1) % 624 := rfl
        have i397 : (⟨k, hk'⟩ + 397 : Fin 624).val = (k + 397) % 624 := rfl
        have g1 : (loopTo a k)[(⟨k, hk'⟩ + 1 : Fin 624)]
            = if (k + 1) % 624 < k then (regenArray a)[(k + 1) % 624] else a[(k + 1) % 624] :=
          ih ((k + 1) % 624) (by omega)
        have g397 : (loopTo a k)[(⟨k, hk'⟩ + 397 : Fin 624)]
            = if (k + 397) % 624 < k then (regenArray a)[(k + 397) % 624] else a[(k + 397) % 624] :=
          ih ((k + 397) % 624) (by omega)
        rw [ih k hk', g1, g397]
        rcases Nat.lt_or_ge k 227 with hlow | hge
        · have e1 : (k + 1) % 624 = k + 1 := Nat.mod_eq_of_lt (by omega)
          have e2 : (k + 397) % 624 = k + 397 := Nat.mod_eq_of_lt (by omega)
          rw [regenArray_low a k hlow]
          simp [e1, e2]
        · have e2 : (k + 397) % 624 = k - 227 := by omega
          rcases Nat.lt_or_ge k 623 with hmid | hlast
          · have e1 : (k + 1) % 624 = k + 1 := Nat.mod_eq_of_lt (by omega)
            rw [regenArray_high a k hge hmid]
            have : k - 227 < k := by omega
            simp [e1, e2, this]
          · have : k = 623 := by omega
            subst this
            rw [regenArray_last a]
            simp
      simpa using key
    · have : ¬ (⟨k, hk'⟩ : Fin 624).val = j := e
      rw [if_neg this, ih j hj]
      have : j < k + 1 ↔ j < k := by omega
      simp [this]

/-- REGEN is the in-place ascending loop of rule R101 (log entry 9). -/
theorem regenArray_eq_regenLoop (a : StateArray) : regenArray a = regenLoop a := by
  have e : regenLoop a = loopTo a 624 := by
    rw [loopTo, List.take_of_length_le (by simp)]
    rfl
  apply Vector.ext
  intro j hj
  rw [e, loopTo_getElem a 624 (by omega) j hj, if_pos hj]

end Sys2Proof.Laws
end

