-- ==== Sys2Proof/Laws/State.lean ====
section
/-! SUPPORT. One lemma per field per update of the state: what `respond`, `setFlag`, `raiseFault`, `advance`, `assertReset` and
`queueMoves` leave in each field. -/

namespace Sys2Proof.Machine

section Respond
variable (r : Response) (s : State)
@[simp] theorem respond_array : (respond r s).array = s.array := rfl
@[simp] theorem respond_cursor : (respond r s).cursor = s.cursor := rfl
@[simp] theorem respond_seeded : (respond r s).seeded = s.seeded := rfl
@[simp] theorem respond_fIllegal : (respond r s).fIllegal = s.fIllegal := rfl
@[simp] theorem respond_fUnseeded : (respond r s).fUnseeded = s.fUnseeded := rfl
@[simp] theorem respond_fRange : (respond r s).fRange = s.fRange := rfl
@[simp] theorem respond_fCp : (respond r s).fCp = s.fCp := rfl
@[simp] theorem respond_drawcnt : (respond r s).drawcnt = s.drawcnt := rfl
@[simp] theorem respond_regencnt : (respond r s).regencnt = s.regencnt := rfl
@[simp] theorem respond_host : (respond r s).host = s.host := rfl
@[simp] theorem respond_responses : (respond r s).responses = s.responses ++ [r] := rfl
end Respond

section SetFlag
variable (k : FaultKind) (s : State)
@[simp] theorem setFlag_array : (setFlag k s).array = s.array := by cases k <;> rfl
@[simp] theorem setFlag_cursor : (setFlag k s).cursor = s.cursor := by cases k <;> rfl
@[simp] theorem setFlag_seeded : (setFlag k s).seeded = s.seeded := by cases k <;> rfl
@[simp] theorem setFlag_drawcnt : (setFlag k s).drawcnt = s.drawcnt := by cases k <;> rfl
@[simp] theorem setFlag_regencnt : (setFlag k s).regencnt = s.regencnt := by cases k <;> rfl
@[simp] theorem setFlag_host : (setFlag k s).host = s.host := by cases k <;> rfl
@[simp] theorem setFlag_responses : (setFlag k s).responses = s.responses := by cases k <;> rfl
/-- `F_X <- 1` sets the flag of `X` and keeps the other three (rule R165). -/
theorem flag_setFlag (j : FaultKind) : flag j (setFlag k s) = (decide (j = k) || flag j s) := by
  cases j <;> cases k <;> simp [flag, setFlag]
end SetFlag

section RaiseFault
variable (k : FaultKind) (s : State)
@[simp] theorem raiseFault_array : (raiseFault k s).array = s.array := by simp [raiseFault]
@[simp] theorem raiseFault_cursor : (raiseFault k s).cursor = s.cursor := by simp [raiseFault]
@[simp] theorem raiseFault_seeded : (raiseFault k s).seeded = s.seeded := by simp [raiseFault]
@[simp] theorem raiseFault_drawcnt : (raiseFault k s).drawcnt = s.drawcnt := by simp [raiseFault]
@[simp] theorem raiseFault_regencnt : (raiseFault k s).regencnt = s.regencnt := by simp [raiseFault]
@[simp] theorem raiseFault_host : (raiseFault k s).host = s.host := by simp [raiseFault]
@[simp] theorem raiseFault_responses : (raiseFault k s).responses = s.responses ++ [.fault k] := by simp [raiseFault]
/-- A raised fault sets its own flag and keeps the other three (rule R165). -/
theorem flag_raiseFault (j : FaultKind) : flag j (raiseFault k s) = (decide (j = k) || flag j s) := by
  cases j <;> cases k <;> simp [flag, raiseFault, setFlag, respond]
end RaiseFault

section Advance
variable (s : State)
@[simp] theorem advance_array : (advance s).array = s.array := rfl
@[simp] theorem advance_cursor : (advance s).cursor = s.cursor + 1 := rfl
@[simp] theorem advance_seeded : (advance s).seeded = s.seeded := rfl
@[simp] theorem advance_fIllegal : (advance s).fIllegal = s.fIllegal := rfl
@[simp] theorem advance_fUnseeded : (advance s).fUnseeded = s.fUnseeded := rfl
@[simp] theorem advance_fRange : (advance s).fRange = s.fRange := rfl
@[simp] theorem advance_fCp : (advance s).fCp = s.fCp := rfl
@[simp] theorem advance_drawcnt : (advance s).drawcnt = s.drawcnt + 1#32 := rfl
@[simp] theorem advance_regencnt : (advance s).regencnt = s.regencnt := rfl
@[simp] theorem advance_host : (advance s).host = s.host := rfl
@[simp] theorem advance_responses : (advance s).responses = s.responses := rfl
end Advance

section Port
variable (s : State)
@[simp] theorem assertReset_array : (assertReset s).array = none := rfl
@[simp] theorem assertReset_cursor : (assertReset s).cursor = 0 := rfl
@[simp] theorem assertReset_seeded : (assertReset s).seeded = false := rfl
@[simp] theorem assertReset_fIllegal : (assertReset s).fIllegal = false := rfl
@[simp] theorem assertReset_fUnseeded : (assertReset s).fUnseeded = false := rfl
@[simp] theorem assertReset_fRange : (assertReset s).fRange = false := rfl
@[simp] theorem assertReset_fCp : (assertReset s).fCp = false := rfl
@[simp] theorem assertReset_drawcnt : (assertReset s).drawcnt = 0#32 := rfl
@[simp] theorem assertReset_regencnt : (assertReset s).regencnt = 0#32 := rfl
@[simp] theorem assertReset_host : (assertReset s).host = s.host := rfl
@[simp] theorem assertReset_responses : (assertReset s).responses = s.responses := rfl
@[simp] theorem queueMoves_host (ms : List HostMove) : (queueMoves ms s).host = ms ++ s.host := rfl
@[simp] theorem queueMoves_array (ms : List HostMove) : (queueMoves ms s).array = s.array := rfl
@[simp] theorem queueMoves_cursor (ms : List HostMove) : (queueMoves ms s).cursor = s.cursor := rfl
@[simp] theorem queueMoves_seeded (ms : List HostMove) : (queueMoves ms s).seeded = s.seeded := rfl
@[simp] theorem queueMoves_fIllegal (ms : List HostMove) : (queueMoves ms s).fIllegal = s.fIllegal := rfl
@[simp] theorem queueMoves_fUnseeded (ms : List HostMove) : (queueMoves ms s).fUnseeded = s.fUnseeded := rfl
@[simp] theorem queueMoves_fRange (ms : List HostMove) : (queueMoves ms s).fRange = s.fRange := rfl
@[simp] theorem queueMoves_fCp (ms : List HostMove) : (queueMoves ms s).fCp = s.fCp := rfl
@[simp] theorem queueMoves_drawcnt (ms : List HostMove) : (queueMoves ms s).drawcnt = s.drawcnt := rfl
@[simp] theorem queueMoves_regencnt (ms : List HostMove) : (queueMoves ms s).regencnt = s.regencnt := rfl
@[simp] theorem queueMoves_responses (ms : List HostMove) : (queueMoves ms s).responses = s.responses := rfl
end Port

end Sys2Proof.Machine
end

