-- ==== Sys2Proof/Laws/Ops.lean ====
section
/-! SUPPORT. One lemma per shared operation that says everything it can do: seeding, extraction, a draw that ends its command, and the
arithmetic of the operands. -/

namespace Sys2Proof.Laws

open Sys2Proof.Machine

/-! ### Seeding (rule R91) -/

theorem seedTail_getElem? (p : Word) (i k j : Nat) (hj : j < k) (w : Word) (hw : (p :: seedTail p i k)[j]? = some w) :
    (seedTail p i k)[j]? = some (seedStep w (i + j)) := by
  induction j generalizing p i k with
  | zero =>
    cases k with
    | zero => omega
    | succ k => simp_all [seedTail]
  | succ j ih =>
    cases k with
    | zero => omega
    | succ k =>
      have := ih (seedStep p i) (i + 1) k (by omega) (by simpa [seedTail] using hw)
      simpa [seedTail, Nat.add_comm, Nat.add_left_comm] using this

/-- The seed is word 0 (rule R91). -/
theorem seedFill_zero (n : Word) : (seedFill n)[0] = n := rfl

theorem seedFill_list (n : Word) (i : Nat) (hi : i < 624) : (n :: seedTail n 1 623)[i]? = some (seedFill n)[i] := by
  rw [List.getElem?_eq_getElem (by simp [seedTail_length]; omega)]
  rfl

/-- Each later word comes from the one before it (rule R91). -/
theorem seedFill_succ (n : Word) (i : Nat) (hi : i < 623) :
    (seedFill n)[i + 1] = seedStep (seedFill n)[i] (i + 1) := by
  have h := seedTail_getElem? n 1 623 i hi _ (seedFill_list n i (by omega))
  have h' := seedFill_list n (i + 1) (by omega)
  rw [List.getElem?_cons_succ, h, Nat.add_comm 1 i] at h'
  exact (Option.some.inj h').symm

/-! ### Extraction (rule R110) -/

/-- The state after a draw from the array `a` (rule R110). -/
def afterDraw (s : State) (a : StateArray) : State :=
  { s with
    array := some (arrayForDraw a s.cursor), cursor := s.cursor + 1, drawcnt := s.drawcnt + 1#32,
    regencnt := regencntAfterDraw s }

@[simp] theorem afterDraw_array (s : State) (a : StateArray) :
    (afterDraw s a).array = some (arrayForDraw a s.cursor) := rfl
@[simp] theorem afterDraw_cursor (s : State) (a : StateArray) : (afterDraw s a).cursor = s.cursor + 1 := rfl
@[simp] theorem afterDraw_seeded (s : State) (a : StateArray) : (afterDraw s a).seeded = s.seeded := rfl
@[simp] theorem afterDraw_fIllegal (s : State) (a : StateArray) : (afterDraw s a).fIllegal = s.fIllegal := rfl
@[simp] theorem afterDraw_fUnseeded (s : State) (a : StateArray) : (afterDraw s a).fUnseeded = s.fUnseeded := rfl
@[simp] theorem afterDraw_fRange (s : State) (a : StateArray) : (afterDraw s a).fRange = s.fRange := rfl
@[simp] theorem afterDraw_fCp (s : State) (a : StateArray) : (afterDraw s a).fCp = s.fCp := rfl
@[simp] theorem afterDraw_drawcnt (s : State) (a : StateArray) : (afterDraw s a).drawcnt = s.drawcnt + 1#32 := rfl
@[simp] theorem afterDraw_regencnt (s : State) (a : StateArray) : (afterDraw s a).regencnt = regencntAfterDraw s := rfl
@[simp] theorem afterDraw_host (s : State) (a : StateArray) : (afterDraw s a).host = s.host := rfl
@[simp] theorem afterDraw_responses (s : State) (a : StateArray) : (afterDraw s a).responses = s.responses := rfl

/-- With values in the array, `EXTRACT` returns the tempered word and advances the generator (rule R110). -/
theorem extract_some {s : State} {a : StateArray} (h : s.array = some a) :
    extract s = .ok (drawnWord a s.cursor, afterDraw s a) := by
  by_cases hc : s.cursor = 0
  · simp [extract, regenIfPrimed, regen, readAtCursor, h, hc, drawnWord, arrayForDraw, afterDraw, regencntAfterDraw, advance]
  · simp [extract, regenIfPrimed, readAtCursor, h, hc, drawnWord, arrayForDraw, afterDraw, regencntAfterDraw, advance]

/-- With no value in the array, `EXTRACT` stops the model (rule R22). -/
theorem extract_none {s : State} (h : s.array = none) : extract s = .error .readOfNoValue := by
  by_cases hc : s.cursor = 0
  · simp [extract, regenIfPrimed, regen, h, hc]
  · simp [extract, regenIfPrimed, readAtCursor, h, hc]

theorem drawThenRespond_some {s : State} {a : StateArray} (h : s.array = some a) (f : Word → Word) :
    drawThenRespond f s = .next (respond (.ok (f (drawnWord a s.cursor))) (afterDraw s a)) := by
  simp [drawThenRespond, extract_some h]

theorem drawThenRespond_none {s : State} (h : s.array = none) (f : Word → Word) :
    drawThenRespond f s = .fault .readOfNoValue := by
  simp [drawThenRespond, extract_none h]

/-! ### Operands (rules R114, R132) -/

/-- The exact quotient of the rescale never leaves the range (rule R115). -/
theorem rescale_quotient_le (y r : Nat) (hy : y < 4294967296) : y * r / 4294967295 ≤ r := by
  have : y * r ≤ 4294967295 * r := Nat.mul_le_mul_right r (by omega)
  exact Nat.div_le_of_le_mul (by omega)

/-- `RESCALE` as a number (rule R114). -/
theorem rescale_toNat (y lo hi : Word) (h : lo.toNat ≤ hi.toNat) :
    (rescale y lo hi).toNat = lo.toNat + y.toNat * (hi.toNat - lo.toNat) / 4294967295 := by
  have q := rescale_quotient_le y.toNat (hi.toNat - lo.toNat) y.isLt
  have := hi.isLt
  simp only [rescale, rescaleDivisor, BitVec.toNat_ofNat]
  exact Nat.mod_eq_of_lt (by omega)

/-- The shift is 1, 2, 3 or 4 (rule R116). -/
theorem shiftOf_bounds (y : Word) : 1 ≤ (shiftOf y).toNat ∧ (shiftOf y).toNat ≤ 4 := by
  have e := rescale_toNat y shiftMin shiftMax (by decide)
  have e' : (shiftOf y).toNat = 1 + y.toNat * 3 / 4294967295 := e
  have q := rescale_quotient_le y.toNat 3 y.isLt
  omega

/-- `cpAdd` as a number (rule R132). -/
theorem cpAdd_toNat (c s : Word) : (cpAdd c s).toNat = (c.toNat + s.toNat) % 0x110000 := by
  simp only [cpAdd, Config.cpModulus, BitVec.toNat_ofNat]
  omega

/-- `cpSub` as a number, for a code point and a shift below the modulus (rule R132). -/
theorem cpSub_toNat (c s : Word) (hs : s.toNat < 0x110000) :
    (cpSub c s).toNat = (c.toNat + (0x110000 - s.toNat)) % 0x110000 := by
  simp only [cpSub, Config.cpModulus, BitVec.toNat_ofNat]
  omega

/-- A code point, enciphered and deciphered with one shift, comes back (rule R137). -/
theorem cpSub_cpAdd (c s : Word) (hc : c.toNat < 0x110000) (hs : s.toNat < 0x110000) : cpSub (cpAdd c s) s = c := by
  apply BitVec.eq_of_toNat_eq
  rw [cpSub_toNat _ _ hs, cpAdd_toNat]
  omega

/-- The other way round (rule R137). -/
theorem cpAdd_cpSub (c s : Word) (hc : c.toNat < 0x110000) (hs : s.toNat < 0x110000) : cpAdd (cpSub c s) s = c := by
  apply BitVec.eq_of_toNat_eq
  rw [cpAdd_toNat, cpSub_toNat _ _ hs]
  omega

end Sys2Proof.Laws
end

