-- ==== Sys2Proof/Laws/PerInstr.lean ====
section
/-! SUPPORT. The family of statements made per instruction: the encoding of a well-formed term fits its own row of the opcode map and no
other (rule R74). -/

namespace Sys2Proof.Laws.OpcodeRow

/-- A well-formed instruction's word fits its own row, and fits no other. -/
def Statement (i : Instr) : Prop :=
  i.wellFormed = true → ∀ r ∈ opcodeRows, (encode i &&& r.1 = r.2 ↔ r = (rowMask i, rowMatch i))

/-- Which rows a word fits, by its fields. -/
theorem rows_iff (P : CommandWord × CommandWord → Prop) :
    (∀ r ∈ opcodeRows, P r) ↔
      P (0xFF00000000FFFFFFFF#72, 0x010000000000000000#72) ∧ P (0xFF0000000000000000#72, 0x020000000000000000#72) ∧
      P (0xFF00000000FFFFFFFF#72, 0x030000000000000000#72) ∧ P (0xFF00000000FFFFFFFF#72, 0x040000000000000000#72) ∧
      P (0xFFFFFFFFFCFFFFFFFF#72, 0x050000000000000000#72) := by
  simp [opcodeRows]

theorem seed (n : Word) : Statement (.seed n) := by
  obtain ⟨m1, m2, m3, m4, m5⟩ := rowMatch_words
  intro _
  rw [rows_iff, m1, m2, m3, m4, m5]
  simp only [fits_FA, fits_FAB, fits_FSR, encode, opField_commandWord, aField_commandWord, bField_commandWord, rowMask, rowMatch]
  simp
  decide

theorem nextint (lo hi : Word) : Statement (.nextint lo hi) := by
  obtain ⟨m1, m2, m3, m4, m5⟩ := rowMatch_words
  intro _
  rw [rows_iff, m1, m2, m3, m4, m5]
  simp only [fits_FA, fits_FAB, fits_FSR, encode, opField_commandWord, aField_commandWord, bField_commandWord, rowMask, rowMatch]
  simp
  decide

theorem enc (c : Word) : Statement (.enc c) := by
  obtain ⟨m1, m2, m3, m4, m5⟩ := rowMatch_words
  intro _
  rw [rows_iff, m1, m2, m3, m4, m5]
  simp only [fits_FA, fits_FAB, fits_FSR, encode, opField_commandWord, aField_commandWord, bField_commandWord, rowMask, rowMatch]
  simp
  decide

theorem dec (c : Word) : Statement (.dec c) := by
  obtain ⟨m1, m2, m3, m4, m5⟩ := rowMatch_words
  intro _
  rw [rows_iff, m1, m2, m3, m4, m5]
  simp only [fits_FA, fits_FAB, fits_FSR, encode, opField_commandWord, aField_commandWord, bField_commandWord, rowMask, rowMatch]
  simp
  decide

theorem rdsr (sr : Word) : Statement (.rdsr sr) := by
  obtain ⟨m1, m2, m3, m4, m5⟩ := rowMatch_words
  intro h
  have h4 : sr.toNat < 4 := by simpa [Instr.wellFormed, Config.statusRegisters] using h
  rw [rows_iff, m1, m2, m3, m4, m5]
  simp only [fits_FA, fits_FAB, fits_FSR, encode, opField_commandWord, aField_commandWord, bField_commandWord, rowMask, rowMatch, h4]
  simp
  decide

end Sys2Proof.Laws.OpcodeRow
end

