-- ==== Sys2Proof/Laws/Step.lean ====
section
/-! SUPPORT. What a command and a step can do, once: the inversion lemmas every invariant goes through. -/

namespace Sys2Proof.Laws

open Sys2Proof.Machine

/-- The value a drawing command makes of the tempered word (rules R118, R130, R131); 0 for the others. -/
def drawResult : Instr → Word → Word
  | .nextint lo hi, z => rescale z lo hi
  | .enc c, z => cpAdd c (shiftOf z)
  | .dec c, z => cpSub c (shiftOf z)
  | _, _ => 0#32

/-- The fault a command raises in a state, in the order of rule R166 (`ILLEGAL` only for an index that names no register). -/
def raises : Instr → State → Option FaultKind
  | .seed _, _ => none
  | .nextint lo hi, s => if s.seeded = false then some .unseeded else if hi.toNat < lo.toNat then some .range else none
  | .enc c, s => if s.seeded = false then some .unseeded else if isCodePoint c = false then some .cpRange else none
  | .dec c, s => if s.seeded = false then some .unseeded else if isCodePoint c = false then some .cpRange else none
  | .rdsr sr, s => if (statusRegister sr s).isSome then none else some .illegal

/-- The state `SEED n` leaves, before its response (rule R90). -/
def afterSeed (n : Word) (s : State) : State :=
  { s with array := some (seedFill n), cursor := 0, seeded := true, drawcnt := 0#32, regencnt := 0#32 }

/-- A command that raises a fault does that and nothing else (rule R165). -/
theorem exec_raises {i : Instr} {s : State} {k : FaultKind} (h : raises i s = some k) :
    exec i s = .next (raiseFault k s) := by
  cases i with
  | seed n => simp [raises] at h
  | nextint lo hi =>
    simp only [raises] at h
    simp only [exec, execNextint]
    split at h
    · simp_all
    · split at h <;> simp_all
  | enc c =>
    simp only [raises] at h
    simp only [exec, execEnc, cipherChar]
    split at h
    · simp_all
    · split at h <;> simp_all
  | dec c =>
    simp only [raises] at h
    simp only [exec, execDec, cipherChar]
    split at h
    · simp_all
    · split at h <;> simp_all
  | rdsr sr =>
    simp only [raises] at h
    simp only [exec, execRdsr]
    cases e : statusRegister sr s <;> simp_all

/-- A drawing command that raises no fault is a draw that ends with its result (rules R118, R130, R131). -/
theorem exec_draws {i : Instr} {s : State} (hd : draws i = true) (h : raises i s = none) :
    exec i s = drawThenRespond (drawResult i) s := by
  cases i with
  | seed n => simp [draws] at hd
  | nextint lo hi =>
    simp only [raises] at h
    simp only [exec, execNextint]
    split at h
    · simp at h
    · rename_i hs
      split at h
      · simp at h
      · rename_i hr
        rw [if_neg hs, if_neg hr]
        rfl
  | enc c =>
    simp only [raises] at h
    simp only [exec, execEnc, cipherChar]
    split at h
    · simp at h
    · split at h
      · simp at h
      · simp_all
        rfl
  | dec c =>
    simp only [raises] at h
    simp only [exec, execDec, cipherChar]
    split at h
    · simp at h
    · split at h
      · simp at h
      · simp_all
        rfl
  | rdsr sr => simp [draws] at hd

/-- A drawing command that raises no fault finds the block seeded (rule R162). -/
theorem seeded_of_draws {i : Instr} {s : State} (hd : draws i = true) (h : raises i s = none) : s.seeded = true := by
  cases hs : s.seeded <;> cases i <;> simp_all [draws, raises]

/-- What a command can do: seed, raise one fault, draw, or read a register. -/
theorem exec_cases {i : Instr} {s t : State} (h : exec i s = .next t) :
    (∃ n, i = .seed n ∧ t = respond (.ok 0#32) (afterSeed n s)) ∨
    (∃ k, raises i s = some k ∧ t = raiseFault k s) ∨
    (∃ a, draws i = true ∧ raises i s = none ∧ s.array = some a ∧
      t = respond (.ok (drawResult i (drawnWord a s.cursor))) (afterDraw s a)) ∨
    (∃ sr v, i = .rdsr sr ∧ statusRegister sr s = some v ∧ t = respond (.ok v) s) := by
  cases hr : raises i s with
  | some k =>
    rw [exec_raises hr] at h
    exact .inr (.inl ⟨k, rfl, (Host.Outcome.next.inj h).symm⟩)
  | none =>
    cases hd : draws i with
    | true =>
      rw [exec_draws hd hr] at h
      cases ha : s.array with
      | none => rw [drawThenRespond_none ha] at h; cases h
      | some a =>
        rw [drawThenRespond_some ha] at h
        exact .inr (.inr (.inl ⟨a, rfl, rfl, rfl, (Host.Outcome.next.inj h).symm⟩))
    | false =>
      cases i with
      | seed n => exact .inl ⟨n, rfl, (Host.Outcome.next.inj h).symm⟩
      | rdsr sr =>
        cases e : statusRegister sr s with
        | none => simp [raises, e] at hr
        | some v =>
          simp only [exec, execRdsr, e] at h
          exact .inr (.inr (.inr ⟨sr, v, rfl, e, (Host.Outcome.next.inj h).symm⟩))
      | nextint lo hi => simp [draws] at hd
      | enc c => simp [draws] at hd
      | dec c => simp [draws] at hd

/-- What a step can do: stay, reset, refuse an illegal word, or execute a command. -/
theorem step_cases {s t : State} (h : step s = .next t) :
    (s.host = [] ∧ t = s) ∨
    (∃ rest, s.host = .reset :: rest ∧ t = assertReset { s with host := rest }) ∨
    (∃ w rest e, s.host = .command w :: rest ∧ decode w = .error e ∧ t = raiseFault .illegal { s with host := rest }) ∨
    (∃ w rest i, s.host = .command w :: rest ∧ decode w = .ok i ∧ exec i { s with host := rest } = .next t) := by
  unfold step at h
  split at h
  · rename_i e
    exact .inl ⟨e, (Host.Outcome.next.inj h).symm⟩
  · rename_i rest e
    exact .inr (.inl ⟨rest, e, (Host.Outcome.next.inj h).symm⟩)
  · rename_i w rest e
    split at h
    · rename_i i d
      exact .inr (.inr (.inr ⟨w, rest, i, e, d, h⟩))
    · rename_i x d
      exact .inr (.inr (.inl ⟨w, rest, x, e, d, (Host.Outcome.next.inj h).symm⟩))

/-- One step of a longer run. -/
theorem run_succ (k : Nat) (s : State) :
    Host.Core.run Sys2Proof.core (k + 1) s =
      match step s with
      | .next t => Host.Core.run Sys2Proof.core k t
      | .fault r => .fault r
      | .refused r => .refused r := by
  have h : Sys2Proof.core.step s = step s := rfl
  cases e : step s <;> simp [Host.Core.run, h, e]

end Sys2Proof.Laws
end

