-- ==== Sys2Proof/Tests/Slice0.lean ====
section
/-! SUPPORT. Small tests, each expected value taken from the spec's own tables, and for every statement with hypotheses a concrete
state and operands that meet them. -/

namespace Sys2Proof.Tests

open Sys2Proof.Machine Sys2Proof.Laws

/-! ### Well-formedness: an ill-formed term for the one check (rule R76) -/

theorem test_wellFormed_refuses_index_4 : (Instr.rdsr 4#32).wellFormed = false := by decide
theorem test_wellFormed_accepts_index_3 : (Instr.rdsr 3#32).wellFormed = true := by decide

/-! ### Decoding: words written out bit by bit, OP then A then B (30_encoding.md sections 1, 4; 95_test_vectors.md section 2.8) -/

theorem test_decode_seed : decode
    0b00000001_00000000000000000000000000000101_00000000000000000000000000000000#72 = .ok (.seed 5#32) := by decide
theorem test_decode_nextint : decode
    0b00000010_00000000000000000000000000000100_00000000000000000000000000000001#72 = .ok (.nextint 4#32 1#32) := by decide
theorem test_decode_enc : decode
    0b00000011_00000000000100010000000000000000_00000000000000000000000000000000#72 = .ok (.enc 0x110000#32) := by decide
theorem test_decode_dec : decode
    0b00000100_00000000000000000000000001000010_00000000000000000000000000000000#72 = .ok (.dec 0x42#32) := by decide
theorem test_decode_rdsr : decode
    0b00000101_00000000000000000000000000000011_00000000000000000000000000000000#72 = .ok (.rdsr 3#32) := by decide
theorem test_decode_high_index_bit : decode 0x058000000000000000#72 = .error (.noStatusRegister 0x80000000#32) := by decide
theorem test_decode_high_b_bit : decode 0x050000000080000000#72 = .error (.bNotZero 0x05#8 0x80000000#32) := by decide
theorem test_encode_worked :
    encode (.seed 5#32) = 0x010000000500000000#72 ∧ encode (.nextint 1#32 4#32) = 0x020000000100000004#72 ∧
    encode (.enc 0x41#32) = 0x030000004100000000#72 ∧ encode (.dec 0x42#32) = 0x040000004200000000#72 ∧
    encode (.rdsr 3#32) = 0x050000000300000000#72 := by decide
theorem test_decodeTableWord_rows :
    decodeTableWord 72 0x010000000000000000 = some (.seed 0#32) ∧
    decodeTableWord 72 0x020000000000000000 = some (.nextint 0#32 0#32) ∧
    decodeTableWord 72 0x030000000000000000 = some (.enc 0#32) ∧
    decodeTableWord 72 0x040000000000000000 = some (.dec 0#32) ∧
    decodeTableWord 72 0x050000000000000000 = some (.rdsr 0#32) := by decide

/-! ### States and observations -/

/-- An array of zeros: a regeneration leaves it as it is and every draw returns 0 (41_regen.md section 3, rule R111). -/
def zeros : StateArray := Vector.replicate 624 0#32

/-- A seeded block with the array of zeros and the cursor at `c`. -/
def seededAt (c : Fin 624) : State := { State.reset with array := some zeros, cursor := c, seeded := true }

/-- A state whose host's next move is `m`. -/
def about (m : HostMove) (s : State) : State := { s with host := [m] }

/-- The bits of the last response, where the outcome is a next state. -/
def lastResponse (o : Host.Outcome State Fault Refusal) : Option ResponseWord :=
  match o with
  | .next t => t.responses.getLast?.map Response.toWord
  | .fault _ => none
  | .refused _ => none

/-- Cursor, `DRAWCNT` and `REGENCNT`, where the outcome is a next state. -/
def counters (o : Host.Outcome State Fault Refusal) : Option (Nat × Word × Word) :=
  match o with
  | .next t => some (t.cursor.val, t.drawcnt, t.regencnt)
  | .fault _ => none
  | .refused _ => none

/-- Word `i` of the array, where the outcome is a next state. -/
def wordAt (i : Fin 624) (o : Host.Outcome State Fault Refusal) : Option Word :=
  match o with
  | .next t => t.array.map fun a => a[i]
  | .fault _ => none
  | .refused _ => none

/-! ### One step of each command (worked examples of rules R90, R118, R130, R131, R150; programs P5 and P6) -/

theorem test_seed_five :
    wordAt 1 (exec (.seed 5#32) State.reset) = some 0x1C25AEF8#32 ∧
    wordAt 623 (exec (.seed 5#32) State.reset) = some 0xA013BC8A#32 ∧
    lastResponse (exec (.seed 5#32) State.reset) = some 0x0000000000#40 := by decide +kernel
theorem test_seed_all_ones : wordAt 1 (exec (.seed 0xFFFFFFFF#32) State.reset) = some 0x93F8769F#32 := by decide +kernel

theorem test_nextint_one_four :
    lastResponse (exec (.nextint 1#32 4#32) (seededState 5#32)) = some 0x0000000001#40 ∧
    counters (exec (.nextint 1#32 4#32) (seededState 5#32)) = some (1, 1#32, 1#32) := by decide +kernel
theorem test_nextint_range :
    lastResponse (exec (.nextint 4#32 1#32) (seededState 7#32)) = some 0x0300000000#40 := by decide +kernel

theorem test_enc_letter : lastResponse (exec (.enc 0x41#32) (seededState 5#32)) = some 0x0000000042#40 := by decide +kernel
theorem test_enc_wraps : lastResponse (exec (.enc 0x10FFFF#32) (seededState 0#32)) = some 0x0000000001#40 := by decide +kernel

theorem test_dec_letter : lastResponse (exec (.dec 0x42#32) (seededState 5#32)) = some 0x0000000041#40 := by decide +kernel
theorem test_dec_wraps : lastResponse (exec (.dec 0x000001#32) (seededState 0#32)) = some 0x000010FFFF#40 := by decide +kernel

theorem test_rdsr_status_reset : lastResponse (exec (.rdsr 0#32) State.reset) = some 0x0000000002#40 := by decide
theorem test_rdsr_status_all_flags :
    lastResponse (exec (.rdsr 0#32)
      { seededAt 0 with fIllegal := true, fUnseeded := true, fRange := true, fCp := true }) = some 0x00000000F3#40 := by
  decide +kernel

/-! ### The internal operations (95_test_vectors.md sections 2.2 to 2.6) -/

theorem test_regen_seed_zero :
    (regenArray (seedFill 0#32))[0] = 0x108B095C#32 ∧ (regenArray (seedFill 0#32))[226] = 0x2FF4EB16#32 ∧
    (regenArray (seedFill 0#32))[227] = 0x26E28831#32 ∧ (regenArray (seedFill 0#32))[228] = 0xC9015B26#32 := by
  decide +kernel
theorem test_regen_seed_five :
    (regenArray (seedFill 5#32))[396] = 0xAD42494F#32 ∧ (regenArray (seedFill 5#32))[397] = 0xA002B669#32 ∧
    (regenArray (seedFill 5#32))[622] = 0xF4C536A1#32 ∧ (regenArray (seedFill 5#32))[623] = 0x6897FC8D#32 := by
  decide +kernel
theorem test_regen_twice : (regenArray (regenArray (seedFill 0#32)))[623] = 0xD0566ACC#32 := by decide +kernel
theorem test_temper :
    temper 0x00000001#32 = 0x00400091#32 ∧ temper 0x80000000#32 = 0x88102204#32 ∧ temper 0xFFFFFFFF#32 = 0x6FE01BF8#32 ∧
    temper 0x12345678#32 = 0x2B7E4A2D#32 ∧ temper 0x9908B0DF#32 = 0xFE97EAEC#32 := by decide
theorem test_rescale_shift_edges :
    rescale 0x55555554#32 1#32 4#32 = 1#32 ∧ rescale 0x55555555#32 1#32 4#32 = 2#32 ∧
    rescale 0xAAAAAAA9#32 1#32 4#32 = 2#32 ∧ rescale 0xAAAAAAAA#32 1#32 4#32 = 3#32 ∧
    rescale 0xFFFFFFFE#32 1#32 4#32 = 3#32 ∧ rescale 0xFFFFFFFF#32 1#32 4#32 = 4#32 := by decide +kernel
theorem test_rescale_exact_not_binary64 :
    rescale 0xFFFFFEFF#32 0#32 16777216#32 = 16777214#32 ∧ rescale 0x80000000#32 0#32 4294967293#32 = 2147483646#32 ∧
    rescale 0x80000000#32 2147483648#32 4294967295#32 = 3221225471#32 := by decide +kernel
theorem test_first_outputs : out 0#32 1 = some 2479041101#32 ∧ out 1#32 1 = some 3295800337#32 := by decide +kernel

/-! ### Faults and their priority, one step each (rule R166 and program P5) -/

theorem test_illegal_before_unseeded :
    lastResponse (step (about (.command 0x030011000000000001#72) State.reset)) = some 0x0100000000#40 := by decide
theorem test_unseeded_before_cpRange :
    lastResponse (step (about (.command 0x030011000000000000#72) State.reset)) = some 0x0200000000#40 := by decide
theorem test_cpRange_after_seed :
    lastResponse (step (about (.command 0x030011000000000000#72) (seededAt 0))) = some 0x0400000000#40 := by decide +kernel
theorem test_all_zero_word_is_illegal :
    lastResponse (step (about (.command 0#72) State.reset)) = some 0x0100000000#40 := by decide

/-! ### The hooks of the host -/

theorem test_withFetchWord_runs_first :
    lastResponse (step (State.reset.withFetchWord 72 0x050000000000000000)) = some 0x0000000002#40 := by decide

/-! ### Witnesses: for every statement with hypotheses, a state and operands that meet them, at the boundary values of each clause -/

theorem zeros_seeded (c : Fin 624) : (seededAt c).seeded = true ∧ (seededAt c).array = some zeros := ⟨rfl, rfl⟩

theorem witness_DecodeEncodeRoundTrip :
    (Instr.rdsr 3#32).wellFormed = true ∧ (Instr.enc 0xFFFFFFFF#32).wellFormed = true ∧
    (Instr.nextint 4#32 1#32).wellFormed = true := by decide
theorem witness_DecodedWordIsTheEncoding : decode 0x050000000300000000#72 = .ok (.rdsr 3#32) := by decide

theorem witness_UnmatchedWordRaisesIllegal :
    (∃ rest, (about (.command 0#72) State.reset).host = .command 0#72 :: rest) ∧
    (∀ r ∈ opcodeRows, (0 : CommandWord) &&& r.1 ≠ r.2) ∧
    ((0x000000000000000000#72).extractLsb' 64 8).toNat = 0 ∧ 6 ≤ ((0x060000000000000000#72).extractLsb' 64 8).toNat ∧
    6 ≤ ((0xFFFFFFFFFFFFFFFFFF#72).extractLsb' 64 8).toNat :=
  ⟨⟨[], rfl⟩, by simp [opcodeRows], by decide, by decide, by decide⟩

theorem witness_NonzeroFieldRaisesIllegal :
    (∀ op : Fin 4, ∀ b : Fin 2, ∃ (s : State) (o : BitVec 8) (a y : Word) (rest : List HostMove),
      s.host = .command (o ++ a ++ y) :: rest ∧ o.toNat = [1, 3, 4, 5][op] ∧ y = [1#32, 0x80000000#32][b] ∧ y ≠ 0#32) ∧
    (∃ (s : State) (o : BitVec 8) (a y : Word) (rest : List HostMove), s.host = .command (o ++ a ++ y) :: rest ∧
      o.toNat = 5 ∧ a.toNat = 4 ∧ 3 < a.toNat) := by
  refine ⟨fun op b => ⟨about (.command (BitVec.ofNat 8 [1, 3, 4, 5][op] ++ 0#32 ++ [1#32, 0x80000000#32][b])) State.reset,
    BitVec.ofNat 8 [1, 3, 4, 5][op], 0#32, [1#32, 0x80000000#32][b], [], rfl, ?_, rfl, ?_⟩,
    ⟨about (.command (5#8 ++ 4#32 ++ 0#32)) State.reset, 5#8, 4#32, 0#32, [], rfl, by decide, by decide, by decide⟩⟩
  · revert op; decide
  · revert b; decide

theorem witness_StepRunsDecodedCommand :
    (about (.command 0x030000004100000000#72) State.reset).host = [.command 0x030000004100000000#72] ∧
    decode 0x030000004100000000#72 = .ok (.enc 0x41#32) ∧ (Instr.enc 0x41#32).wellFormed = true := by decide
theorem witness_IdleStepChangesNothing : State.reset.host = [] ∧ (seededAt 5).host = [] := ⟨rfl, rfl⟩

theorem witness_ResetMoveResetsEverything :
    (about .reset (seededAt 5)).host = .reset :: [] ∧
    (∃ t, step (about (.command 0#72) (seededAt 5)) = .next t ∧
      (about (.command 0#72) (seededAt 5)).host.head? ≠ some .reset ∧ (about (.command 0#72) (seededAt 5)).seeded = true) ∧
    ∀ k, ∃ s t, step s = .next t ∧ s.host.head? ≠ some .reset ∧ flag k s = true :=
  ⟨rfl, ⟨_, rfl, by decide, rfl⟩, fun k => ⟨setFlag k State.reset, setFlag k State.reset, by cases k <;> rfl,
    by cases k <;> decide, by cases k <;> rfl⟩⟩

theorem witness_OneResponsePerCommand :
    (about (.command 0x010000000500000000#72) State.reset).host = .command 0x010000000500000000#72 :: [] ∧
    decode 0x010000000500000000#72 = .ok (.seed 5#32) ∧
    ∃ t, step (about (.command 0x010000000500000000#72) State.reset) = .next t :=
  ⟨rfl, by decide, ⟨_, rfl⟩⟩

theorem witness_CommandsRunInIssueOrder :
    ∀ i ∈ [Instr.seed 5#32, .enc 0x41#32, .rdsr 3#32], i.wellFormed = true := by decide

theorem seededAt_inv (c : Fin 624) : StateInv (seededAt c) := ⟨rfl, fun h => by cases h⟩

theorem witness_StepKeepsInvariant :
    StateInv (seededAt 623) ∧ StateInv State.reset ∧ ∃ t, step (about (.command 0#72) (seededAt 623)) = .next t ∧
      StateInv (about (.command 0#72) (seededAt 623)) :=
  ⟨seededAt_inv 623, ⟨rfl, fun _ => ⟨rfl, rfl, rfl⟩⟩, _, rfl, ⟨rfl, fun h => by cases h⟩⟩
theorem witness_StepAnswersFromInvariant :
    StateInv (about (.command 0x0200000000FFFFFFFF#72) (seededAt 0)) := ⟨rfl, fun h => by cases h⟩

theorem witness_StepKeepsCountersAgree :
    CountersAgree State.reset ∧ State.reset.drawcnt ≠ 0xFFFFFFFF#32 ∧ (∃ t, step State.reset = .next t) ∧
    CountersAgree { seededAt 0 with drawcnt := 624#32, regencnt := 1#32 } := by
  refine ⟨⟨rfl, rfl⟩, by decide, ⟨_, rfl⟩, ⟨rfl, rfl⟩⟩

theorem witness_DrawWithoutValuesStops :
    ∃ s : State, s.seeded = true ∧ s.array = none ∧
      ∀ i ∈ [Instr.nextint 1#32 1#32, .enc 0x10FFFF#32, .dec 0#32], draws i = true ∧ operandsGood i = true :=
  ⟨{ State.reset with seeded := true }, rfl, rfl, by decide⟩

theorem witness_SeedIgnoresHistory : ∃ t, sendAll [.seed 1#32, .rdsr 0#32, .rdsr 4#32] State.reset = .next t := ⟨_, rfl⟩
theorem witness_SeedFrame : ∃ t, exec (.seed 1#32) (seededAt 5) = .next t := ⟨_, rfl⟩
theorem witness_SeedFillsByRecurrence : 1 ≤ 1 ∧ 1 < 624 ∧ 1 ≤ 623 ∧ 623 < 624 := by decide

/-- A draw from the array of zeros is 0 and answers, wherever the cursor is. -/
theorem zeros_draw (i : Instr) (c : Fin 624) (hd : draws i = true) (hr : raises i (seededAt c) = none) :
    exec i (seededAt c) = .next (respond (.ok (drawResult i (drawnWord zeros c))) (afterDraw (seededAt c) zeros)) := by
  rw [exec_draws hd hr, drawThenRespond_some (zeros_seeded c).2]
  rfl

theorem witness_PrimedDrawRunsTheLoop :
    (seededAt 0).cursor = 0 ∧ (seededAt 0).seeded = true ∧ (seededAt 0).array = some zeros ∧
    (∀ i ∈ [Instr.nextint 1#32 1#32, .enc 0x10FFFF#32, .dec 0#32], draws i = true ∧ operandsGood i = true) ∧
    ∃ t, exec (.dec 0#32) (seededAt 0) = .next t :=
  ⟨rfl, rfl, rfl, by decide, _, zeros_draw (.dec 0#32) 0 rfl (by decide)⟩
theorem witness_RegenerationReadsOldOrNew :
    (∃ t, exec (.enc 0x10FFFF#32) (seededAt 0) = .next t) ∧ (0 < 227 ∧ 226 < 227) ∧
    (227 ≤ 227 ∧ 227 < 623) ∧ (227 ≤ 622 ∧ 622 < 623) :=
  ⟨⟨_, zeros_draw (.enc 0x10FFFF#32) 0 rfl (by decide)⟩, by decide, by decide, by decide⟩

theorem witness_RegeneratesExactlyWhenPrimed :
    (∃ t v, exec (.nextint 0#32 0#32) (seededAt 0) = .next t ∧ t.responses = (seededAt 0).responses ++ [.ok v]) ∧
    (∃ t v, exec (.nextint 0#32 0#32) (seededAt 623) = .next t ∧ t.responses = (seededAt 623).responses ++ [.ok v] ∧
      (seededAt 623).cursor.val ≠ 0) ∧
    (∃ t, exec (.nextint 1#32 0#32) (seededAt 0) = .next t ∧ t.responses = (seededAt 0).responses ++ [.fault .range]) ∧
    (∃ t, exec (.rdsr 3#32) (seededAt 0) = .next t) ∧ (∃ t, exec (.seed 0#32) (seededAt 0) = .next t) ∧
    ∃ e t, decode 0#72 = .error e ∧ step (about (.command 0#72) (seededAt 0)) = .next t :=
  ⟨⟨_, _, zeros_draw (.nextint 0#32 0#32) 0 rfl (by decide), rfl⟩,
    ⟨_, _, zeros_draw (.nextint 0#32 0#32) 623 rfl (by decide), rfl, by decide⟩, ⟨_, rfl, rfl⟩, ⟨_, rfl⟩, ⟨_, rfl⟩,
    ⟨_, _, rfl, rfl⟩⟩

theorem witness_PhaseTransitions :
    (∃ t, exec (.seed 0#32) (seededAt 9) = .next t) ∧
    ∀ c ∈ [(0 : Fin 624), 1, 622, 623], ∃ t v, exec (.nextint 0#32 0#32) (seededAt c) = .next t ∧
      t.responses = (seededAt c).responses ++ [.ok v] :=
  ⟨⟨_, rfl⟩, fun c _ => ⟨_, _, zeros_draw (.nextint 0#32 0#32) c rfl (by simp [raises, seededAt]), rfl⟩⟩

theorem witness_NextintCompletes :
    (seededAt 0).seeded = true ∧ (seededAt 0).array = some zeros ∧ (seededAt 623).array = some zeros ∧
    (7#32).toNat ≤ (7#32).toNat ∧ (0#32).toNat ≤ (0xFFFFFFFF#32).toNat := ⟨rfl, rfl, rfl, by decide, by decide⟩
theorem witness_NextintCornerRanges : (seededAt 0).seeded = true ∧ (seededAt 0).array = some zeros := ⟨rfl, rfl⟩
theorem witness_RescaleIsExact : (7#32).toNat ≤ (7#32).toNat ∧ (0#32).toNat ≤ (0xFFFFFFFF#32).toNat := by decide
theorem witness_RescaleProperties :
    (0#32).toNat ≤ (0xFFFFFFFF#32).toNat ∧ (0#32).toNat ≤ (1#32).toNat ∧
    ((1#32).toNat < (4#32).toNat ∧ rescale 0xFFFFFFFF#32 1#32 4#32 = 4#32) := by decide

theorem witness_DrawsDependOnSeedAndCount :
    (∀ i ∈ [Instr.rdsr 0#32, .nextint 1#32 0#32], ∀ m, i ≠ .seed m) ∧
    ∃ t, sendAll [.seed 5#32, .rdsr 0#32, .nextint 1#32 0#32] State.reset = .next t :=
  ⟨by simp, _, rfl⟩

theorem witness_EncCompletes :
    (seededAt 0).seeded = true ∧ (seededAt 0).array = some zeros ∧ (0x10FFFF#32).toNat < 0x110000 ∧ (0#32).toNat < 0x110000 :=
  ⟨rfl, rfl, by decide, by decide⟩
theorem witness_DecCompletes :
    (seededAt 623).seeded = true ∧ (seededAt 623).array = some zeros ∧ (0#32).toNat < 0x110000 := ⟨rfl, rfl, by decide⟩

/-- The shift of a word 0 is 1, so that 0x10FFFE does not wrap, 0x10FFFF does, 1 does not and 0 does (rule R132). -/
theorem witness_CodePointsWrap :
    (∀ c ∈ [0x10FFFE#32, 0x10FFFF#32], c.toNat < 0x110000 ∧ ∃ t r, exec (.enc c) (seededAt 5) = .next t ∧
      t.responses = (seededAt 5).responses ++ [.ok r]) ∧
    (∀ c ∈ [0#32, 1#32], c.toNat < 0x110000 ∧ ∃ t r, exec (.dec c) (seededAt 5) = .next t ∧
      t.responses = (seededAt 5).responses ++ [.ok r]) := by
  refine ⟨?_, ?_⟩
  · intro c h
    have hc : c.toNat < 0x110000 := by
      simp only [List.mem_cons, List.not_mem_nil, or_false] at h
      rcases h with rfl | rfl <;> decide
    exact ⟨hc, _, _, zeros_draw (.enc c) 5 rfl (by simp [raises, seededAt, isCodePoint, Config.cpModulus, hc]), rfl⟩
  · intro c h
    have hc : c.toNat < 0x110000 := by
      simp only [List.mem_cons, List.not_mem_nil, or_false] at h
      rcases h with rfl | rfl <;> decide
    exact ⟨hc, _, _, zeros_draw (.dec c) 5 rfl (by simp [raises, seededAt, isCodePoint, Config.cpModulus, hc]), rfl⟩

theorem witness_ShiftIsNextintOneFour :
    (0x10FFFF#32).toNat < 0x110000 ∧ ∃ t v, exec (.nextint 1#32 4#32) (seededAt 0) = .next t ∧
      t.responses = (seededAt 0).responses ++ [.ok v] :=
  ⟨by decide, _, _, zeros_draw (.nextint 1#32 4#32) 0 rfl (by decide), rfl⟩

/-- The text of the message statements: both ends of the code-point space. -/
theorem ends_codePoints : ∀ c ∈ [0x10FFFF#32, 0#32], c.toNat < 0x110000 := by
  intro c h
  simp only [List.mem_cons, List.not_mem_nil, or_false] at h
  rcases h with rfl | rfl <;> decide

theorem witness_EncryptClosedForm : (∀ c ∈ [0x10FFFF#32, 0#32], c.toNat < 0x110000) ∧ 1 < [0x10FFFF#32, 0#32].length :=
  ⟨ends_codePoints, by decide⟩
theorem witness_DecryptClosedForm : (∀ c ∈ [0x10FFFF#32, 0#32], c.toNat < 0x110000) ∧ 1 < [0x10FFFF#32, 0#32].length :=
  ⟨ends_codePoints, by decide⟩
theorem witness_CipherRoundTrip : ∀ c ∈ [0x10FFFF#32, 0#32], c.toNat < 0x110000 := ends_codePoints
theorem witness_MessageLength : ∀ c ∈ [0x10FFFF#32, 0#32], c.toNat < 0x110000 := ends_codePoints

theorem witness_DrawFrame :
    (∃ t, exec (.nextint 7#32 7#32) (seededAt 1) = .next t ∧ (seededAt 1).cursor.val ≠ 0 ∧ (seededAt 1).seeded = true ∧
      (7#32).toNat ≤ (7#32).toNat) ∧
    (∃ t, exec (.enc 0x10FFFF#32) (seededAt 0) = .next t ∧ (0x10FFFF#32).toNat < 0x110000) ∧
    (∃ t, exec (.dec 0x110000#32) (seededAt 0) = .next t ∧ t.responses = (seededAt 0).responses ++ [.fault .cpRange]) :=
  ⟨⟨_, zeros_draw (.nextint 7#32 7#32) 1 rfl (by decide), by decide, rfl, by decide⟩,
    ⟨_, zeros_draw (.enc 0x10FFFF#32) 0 rfl (by decide), by decide⟩, ⟨_, rfl, rfl⟩⟩

theorem witness_RdsrCompletes : (0#32).toNat < 4 ∧ (3#32).toNat < 4 := by decide
theorem witness_StatusRegisterFields :
    (∃ t v, exec (.rdsr 0#32) (seededAt 0) = .next t ∧ t.responses = (seededAt 0).responses ++ [.ok v]) ∧
    (∃ t v, exec (.rdsr 1#32) (seededAt 623) = .next t ∧ t.responses = (seededAt 623).responses ++ [.ok v]) ∧
    (∃ t v, exec (.rdsr 2#32) State.reset = .next t ∧ t.responses = State.reset.responses ++ [.ok v]) ∧
    (∃ t v, exec (.rdsr 3#32) State.reset = .next t ∧ t.responses = State.reset.responses ++ [.ok v]) ∧
    (8 ≤ 31 ∧ 10 ≤ 31) :=
  ⟨⟨_, _, rfl, rfl⟩, ⟨_, _, rfl, rfl⟩, ⟨_, _, rfl, rfl⟩, ⟨_, _, rfl, rfl⟩, by decide⟩
theorem witness_RdsrFrame :
    (∃ t, exec (.rdsr 3#32) (seededAt 7) = .next t) ∧ (∃ t, exec (.rdsr 4#32) (seededAt 7) = .next t) ∧ (3#32).toNat < 4 :=
  ⟨⟨_, rfl⟩, ⟨_, rfl⟩, by decide⟩

/-- A block whose `DRAWCNT` is about to wrap. -/
def lastCount : State := { seededAt 0 with drawcnt := 0xFFFFFFFF#32 }

theorem witness_CountersCountDraws :
    (∃ t, exec (.seed 1#32) (seededAt 3) = .next t) ∧
    (∃ t v, exec (.enc 0#32) lastCount = .next t ∧ t.responses = lastCount.responses ++ [.ok v]) ∧
    (∃ t, exec (.enc 0x110000#32) (seededAt 0) = .next t ∧ t.responses = (seededAt 0).responses ++ [.fault .cpRange]) ∧
    (∃ t, exec (.rdsr 2#32) State.reset = .next t) ∧
    ∃ e t, decode 0#72 = .error e ∧ step (about (.command 0#72) (seededAt 0)) = .next t :=
  ⟨⟨_, rfl⟩, ⟨_, _, (exec_draws (i := .enc 0#32) rfl rfl).trans (drawThenRespond_some (s := lastCount) (a := zeros) rfl _), rfl⟩,
    ⟨_, rfl, rfl⟩, ⟨_, rfl⟩, ⟨_, _, rfl, rfl⟩⟩

theorem witness_CountersAfterDraws :
    (∀ i ∈ [Instr.enc 0x41#32, .nextint 7#32 7#32], draws i = true ∧ operandsGood i = true) ∧
    [Instr.enc 0x41#32, .nextint 7#32 7#32].length < 2 ^ 32 := by decide

theorem witness_FaultChangesOnlyItsFlag :
    (about (.command 0x020000000400000001#72) (seededAt 0)).host = .command 0x020000000400000001#72 :: [] ∧
    ∃ t, step (about (.command 0x020000000400000001#72) (seededAt 0)) = .next t ∧ t.responses = [.fault .range] :=
  ⟨rfl, _, rfl, rfl⟩

theorem witness_FaultPriority :
    (∃ e, decode 0x030011000000000001#72 = .error e) ∧
    (∃ i, decode 0x030011000000000000#72 = .ok i ∧ draws i = true ∧ State.reset.seeded = false) ∧
    (decode 0x020000000400000001#72 = .ok (.nextint 4#32 1#32) ∧ (1#32).toNat < (4#32).toNat) ∧
    (decode 0x030011000000000000#72 = .ok (.enc 0x110000#32) ∧ 0x110000 ≤ (0x110000#32).toNat) ∧
    (∃ i, decode 0x050000000300000000#72 = .ok i ∧ draws i = false ∧ operandsGood i = true) ∧
    ∀ w, ∃ s : State, s.host = .command w :: [] ∧ s.seeded = true :=
  ⟨⟨_, rfl⟩, ⟨_, rfl, rfl, rfl⟩, by decide, by decide, ⟨_, rfl, rfl, rfl⟩, fun w => ⟨about (.command w) (seededAt 0), rfl, rfl⟩⟩

theorem witness_UnseededFault :
    draws (.nextint 0#32 0#32) = true ∧ draws (.enc 0#32) = true ∧ draws (.dec 0#32) = true ∧ State.reset.seeded = false ∧
    ∃ t, exec (.dec 0#32) State.reset = .next t ∧ t.responses = State.reset.responses ++ [.fault .unseeded] :=
  ⟨rfl, rfl, rfl, rfl, _, rfl, rfl⟩
theorem witness_RangeFault :
    (seededAt 0).seeded = true ∧ (6#32).toNat < (7#32).toNat ∧
    ∃ t, exec (.nextint 7#32 6#32) (seededAt 0) = .next t ∧ t.responses = (seededAt 0).responses ++ [.fault .range] :=
  ⟨rfl, by decide, _, rfl, rfl⟩
theorem witness_CodePointFault :
    (seededAt 0).seeded = true ∧ 0x110000 ≤ (0x110000#32).toNat ∧
    (∃ t, exec (.dec 0x110000#32) (seededAt 0) = .next t ∧ t.responses = (seededAt 0).responses ++ [.fault .cpRange]) ∧
    (0x10FFFF#32).toNat < 0x110000 ∧ ∃ t, exec (.enc 0x10FFFF#32) (seededAt 0) = .next t :=
  ⟨rfl, by decide, ⟨_, rfl, rfl⟩, by decide, _, zeros_draw (.enc 0x10FFFF#32) 0 rfl (by decide)⟩

/-- `NEXTINT 4, 1` faults, and then `RDSR CURSOR` or `RDSR STATUS` runs. -/
theorem witness_FaultedCommandLeavesNoTrace :
    ∀ w' ∈ [0x050000000100000000#72, 0x050000000000000000#72], ∃ s t u : State,
      s.host = .command 0x020000000400000001#72 :: .command w' :: [] ∧ step s = .next t ∧
      t.responses = s.responses ++ [.fault .range] ∧ step { s with host := .command w' :: [] } = .next u := by
  intro w' h
  simp only [List.mem_cons, List.not_mem_nil, or_false] at h
  rcases h with rfl | rfl <;>
    exact ⟨{ seededAt 0 with host := .command 0x020000000400000001#72 :: .command _ :: [] }, _, _, rfl, rfl, rfl, rfl⟩

theorem witness_GoodSequenceNeverFaults :
    StateInv State.reset ∧ sequenceGood State.reset.seeded [.rdsr 0#32, .seed 5#32, .enc 0x10FFFF#32, .nextint 1#32 1#32] = true :=
  ⟨⟨rfl, fun _ => ⟨rfl, rfl, rfl⟩⟩, by decide⟩

theorem witness_FlagsTellWhetherRunWentWrong :
    (∀ m ∈ [HostMove.command 0#72, .command 0x050000000000000000#72], m ≠ .reset) ∧ anyFlag State.reset = false ∧
    ∃ s t : State, anyFlag s = false ∧ s.host = [.command 0#72, .command 0x050000000000000000#72] ∧
      Host.Core.run Sys2Proof.core 2 s = .next t :=
  ⟨by decide, rfl, { State.reset with host := [.command 0#72, .command 0x050000000000000000#72] }, _, rfl, rfl, rfl⟩

theorem witness_AssemblerOperands : ((-1 : Int) < 0 ∨ (4294967296 : Int) ≤ -1) ∧ ((4294967296 : Int) < 0 ∨ (4294967296 : Int) ≤ 4294967296) := by
  decide

end Sys2Proof.Tests
end

section
/-! PROOF. The equation of `step` for each move the host can have queued, and the statements about the step itself. -/

namespace Sys2Proof.Proofs

open Sys2Proof.Machine

section StepEquations
variable {s : State} {rest : List HostMove} {w : CommandWord}

theorem step_of_no_move (h : s.host = []) : step s = .next s := by
  simp only [step, h]

theorem step_of_reset (h : s.host = .reset :: rest) : step s = .next (assertReset { s with host := rest }) := by
  simp only [step, h]

theorem step_of_legal {i : Instr} (h : s.host = .command w :: rest) (hd : decode w = .ok i) :
    step s = exec i { s with host := rest } := by
  simp only [step, h, hd]

theorem step_of_illegal {e : Illegal} (h : s.host = .command w :: rest) (hd : decode w = .error e) :
    step s = .next (raiseFault .illegal { s with host := rest }) := by
  simp only [step, h, hd]

end StepEquations

/-- Settles O7, by the equation of the step on a legal word; whatever decodes is executed, so the well-formedness premise is not
needed. -/
theorem stepRunsDecodedCommand : Obligations.StepRunsDecodedCommand :=
  fun _ _ _ _ hhost hdecode _ => step_of_legal hhost hdecode

/-- Settles O8, by the equation of the step without a move. -/
theorem idleStepChangesNothing : Obligations.IdleStepChangesNothing :=
  fun _ hhost => step_of_no_move hhost

end Sys2Proof.Proofs
end

section
/-! PROOF. What the commands do to the generator: how an answered draw, a fault, a register read and an illegal word leave it, the
invariant of the state, and the statements about the phases and the counters (10_state.md, rules R22 to R36). -/

namespace Sys2Proof.Proofs

open Sys2Proof.Machine Sys2Proof.Laws

/-! ### The parts of a draw, in the primed and in the draining phase (rules R25, R26, R30) -/

section Phases
variable {s : State} {a : StateArray} {c : Fin 624}

theorem primed_eq_decide_val (s : State) : primed s = decide (s.cursor.val = 0) :=
  decide_eq_decide.mpr Fin.ext_iff

theorem arrayForDraw_of_primed (h : c.val = 0) : arrayForDraw a c = regenLoop a :=
  (if_pos (Fin.ext h)).trans (regenArray_eq_regenLoop a)

theorem arrayForDraw_of_draining (h : c.val ≠ 0) : arrayForDraw a c = a :=
  if_neg (Fin.val_ne_iff.mp h)

theorem regencntAfterDraw_of_primed (h : s.cursor.val = 0) : regencntAfterDraw s = s.regencnt + 1#32 :=
  if_pos (Fin.ext h)

theorem regencntAfterDraw_of_draining (h : s.cursor.val ≠ 0) : regencntAfterDraw s = s.regencnt :=
  if_neg (Fin.val_ne_iff.mp h)

theorem regencntAfterDraw_toNat (s : State) :
    (regencntAfterDraw s).toNat = if s.cursor.val = 0 then (s.regencnt.toNat + 1) % 2 ^ 32 else s.regencnt.toNat := by
  split
  next h => simp [regencntAfterDraw_of_primed h]
  next h => rw [regencntAfterDraw_of_draining h]

/-- The cursor's sum wraps from 623 to 0 (rule R110). -/
theorem afterDraw_cursor_val (s : State) (a : StateArray) : (afterDraw s a).cursor.val = (s.cursor.val + 1) % 624 := rfl

end Phases

/-! ### How a command leaves the generator, by the response it gives -/

theorem sameGenerator_respond (r : Response) (s : State) : SameGenerator (respond r s) s :=
  ⟨rfl, rfl, rfl, rfl, rfl⟩

theorem sameGenerator_raiseFault (k : FaultKind) (s : State) : SameGenerator (raiseFault k s) s :=
  ⟨raiseFault_array k s, raiseFault_cursor k s, raiseFault_seeded k s, raiseFault_drawcnt k s, raiseFault_regencnt k s⟩

section Exec
variable {i : Instr} {s t : State}

theorem exec_seed (n : Word) (s : State) : exec (.seed n) s = .next (respond (.ok 0#32) (afterSeed n s)) := rfl

/-- A drawing command that is answered `OK` drew from an array that holds values (rules R22, R110). -/
theorem exec_draws_ok {v : Word} (hd : draws i = true) (h : exec i s = .next t)
    (hv : t.responses = s.responses ++ [.ok v]) : ∃ a, s.array = some a ∧ t = respond (.ok v) (afterDraw s a) := by
  rcases exec_cases h with ⟨n, rfl, -⟩ | ⟨k, -, rfl⟩ | ⟨a, -, -, ha, rfl⟩ | ⟨sr, _, rfl, -⟩
  · simp [draws] at hd
  · simp at hv
  · obtain rfl : drawResult i (drawnWord a s.cursor) = v := by simpa using hv
    exact ⟨a, ha, rfl⟩
  · simp [draws] at hd

/-- A command that is answered with a fault raised it, and did nothing else (rule R165). -/
theorem exec_faulted {k : FaultKind} (h : exec i s = .next t) (hk : t.responses = s.responses ++ [.fault k]) :
    raises i s = some k ∧ t = raiseFault k s := by
  rcases exec_cases h with ⟨n, -, rfl⟩ | ⟨j, hj, rfl⟩ | ⟨a, -, -, -, rfl⟩ | ⟨sr, v, -, -, rfl⟩
  · simp at hk
  · obtain rfl : j = k := by simpa using hk
    exact ⟨hj, rfl⟩
  · simp at hk
  · simp at hk

theorem sameGenerator_of_faulted {k : FaultKind} (h : exec i s = .next t)
    (hk : t.responses = s.responses ++ [.fault k]) : SameGenerator t s := by
  obtain ⟨-, rfl⟩ := exec_faulted h hk
  exact sameGenerator_raiseFault k s

/-- `RDSR` of a register that exists (rule R150). -/
theorem exec_rdsr_some {sr v : Word} (hv : statusRegister sr s = some v) :
    exec (.rdsr sr) s = .next (respond (.ok v) s) := by
  simp only [exec, execRdsr, hv]

/-- `RDSR` leaves the generator alone, whatever its index (rules R55, R150). -/
theorem sameGenerator_of_rdsr {sr : Word} (h : exec (.rdsr sr) s = .next t) : SameGenerator t s := by
  cases hv : statusRegister sr s with
  | some v =>
    rw [exec_rdsr_some hv] at h
    obtain rfl := Host.Outcome.next.inj h
    exact sameGenerator_respond _ s
  | none =>
    have hr : raises (.rdsr sr) s = some .illegal := by simp [raises, hv]
    rw [exec_raises hr] at h
    obtain rfl := Host.Outcome.next.inj h
    exact sameGenerator_raiseFault _ s

/-- The value that `RDSR` answers is the register's. -/
theorem rdsr_response {sr v w : Word} (hw : statusRegister sr s = some w) (h : exec (.rdsr sr) s = .next t)
    (hv : t.responses = s.responses ++ [.ok v]) : v = w := by
  rw [exec_rdsr_some hw] at h
  obtain rfl := Host.Outcome.next.inj h
  simpa using hv.symm

/-- An index 0 .. 3 names a register (rule R31). -/
theorem statusRegister_isSome {sr : Word} (hsr : sr.toNat < 4) : (statusRegister sr s).isSome = true := by
  obtain h | h | h | h : sr.toNat = 0 ∨ sr.toNat = 1 ∨ sr.toNat = 2 ∨ sr.toNat = 3 := by omega
  all_goals simp only [statusRegister, h, Option.isSome_some]

/-- A command with good operands, on a seeded block if it draws, raises no fault (rule R170). -/
theorem raises_eq_none (hs : draws i = true → s.seeded = true) (hg : operandsGood i = true) : raises i s = none := by
  cases i with
  | seed n => rfl
  | nextint lo hi =>
    have hle : lo.toNat ≤ hi.toNat := by simpa [operandsGood] using hg
    simp [raises, hs rfl, hle]
  | enc c | dec c =>
    have hc : isCodePoint c = true := hg
    simp [raises, hs rfl, hc]
  | rdsr sr =>
    have hsr : sr.toNat < 4 := by simpa [operandsGood] using hg
    simp [raises, statusRegister_isSome hsr]

end Exec

theorem sameGenerator_of_illegal_word {s t : State} {w : CommandWord} {rest : List HostMove} {e : Illegal}
    (hhost : s.host = .command w :: rest) (hdecode : decode w = .error e) (h : step s = .next t) : SameGenerator t s := by
  rw [step_of_illegal hhost hdecode] at h
  obtain rfl := Host.Outcome.next.inj h
  constructor <;> simp

/-! ### The invariant of the state (rules R22, R27, R36) -/

section Invariant
variable {s t : State}

theorem stateInv_of_sameGenerator (h : SameGenerator t s) (hs : StateInv s) : StateInv t := by
  obtain ⟨harray, hcursor, hseeded, hdrawcnt, hregencnt⟩ := h
  obtain ⟨hiff, hunseeded⟩ := hs
  constructor
  · rw [harray, hseeded, hiff]
  · rw [hcursor, hseeded, hdrawcnt, hregencnt]
    exact hunseeded

/-- A seeded block whose array holds values has the invariant, whatever its cursor and counters. -/
theorem stateInv_of_seeded {a : StateArray} (ha : s.array = some a) (hs : s.seeded = true) : StateInv s :=
  ⟨by simp [ha, hs], by simp [hs]⟩

/-- After a reset there are no values, and the cursor and the counters are 0. -/
theorem stateInv_assertReset (s : State) : StateInv (assertReset s) :=
  ⟨rfl, fun _ => ⟨rfl, rfl, rfl⟩⟩

/-- The invariant does not look at the host's moves. -/
theorem stateInv_withHost (hs : StateInv s) (rest : List HostMove) : StateInv { s with host := rest } :=
  ⟨hs.array_iff, hs.unseeded⟩

theorem exec_keeps_stateInv {i : Instr} (hs : StateInv s) (h : exec i s = .next t) : StateInv t := by
  rcases exec_cases h with ⟨n, -, rfl⟩ | ⟨k, -, rfl⟩ | ⟨a, hd, hr, -, rfl⟩ | ⟨sr, v, -, -, rfl⟩
  · exact stateInv_of_seeded (a := seedFill n) rfl rfl
  · exact stateInv_of_sameGenerator (sameGenerator_raiseFault k s) hs
  · have hseeded : s.seeded = true := seeded_of_draws hd hr
    exact stateInv_of_seeded (a := arrayForDraw a s.cursor) rfl hseeded
  · exact stateInv_of_sameGenerator (sameGenerator_respond (.ok v) s) hs

end Invariant

/-- Settles O14, along the four things a step can do: stay, reset, refuse an illegal word, or execute a command. -/
theorem stepKeepsInvariant : Obligations.StepKeepsInvariant := by
  intro s t hs h
  rcases step_cases h with ⟨-, rfl⟩ | ⟨rest, -, rfl⟩ | ⟨w, rest, e, hhost, hdecode, -⟩ | ⟨w, rest, i, -, -, hexec⟩
  · exact hs
  · exact stateInv_assertReset _
  · exact stateInv_of_sameGenerator (sameGenerator_of_illegal_word hhost hdecode h) hs
  · exact exec_keeps_stateInv (stateInv_withHost hs rest) hexec

/-- Settles O13: the reset state is the reset of itself. -/
theorem resetHasInvariant : Obligations.ResetHasInvariant := stateInv_assertReset State.reset

/-- Settles O10, field by field. -/
theorem resetStateIsTheSpecs : Obligations.ResetStateIsTheSpecs :=
  ⟨rfl, rfl, rfl, rfl, rfl, rfl, rfl, rfl, rfl⟩

/-- Settles O17: with no fault to raise, the command is a draw, and the draw finds no value. -/
theorem drawWithoutValuesStops : Obligations.DrawWithoutValuesStops := by
  intro s i hseeded harray hdraws hgood
  rw [exec_draws hdraws (raises_eq_none (fun _ => hseeded) hgood), drawThenRespond_none harray]

/-! ### Regeneration, phases and counters -/

/-- Settles O25, clause by clause: an answered draw, a fault, `RDSR`, `SEED`, an illegal word. -/
theorem regeneratesExactlyWhenPrimed : Obligations.RegeneratesExactlyWhenPrimed := by
  refine ⟨fun i s t h => ⟨s.cursor.isLt, ?draw, ?fault, ?rdsr, ?seed⟩, ?illegal⟩
  case draw =>
    rintro hd ⟨v, hv⟩
    obtain ⟨a, ha, rfl⟩ := exec_draws_ok hd h hv
    refine ⟨afterDraw_cursor_val s a, fun hc => ?_, fun hc => ?_⟩
    · simp [ha, arrayForDraw_of_primed hc, regencntAfterDraw_of_primed hc]
    · simp [ha, arrayForDraw_of_draining hc, regencntAfterDraw_of_draining hc]
  case fault =>
    intro k hk
    have same := sameGenerator_of_faulted h hk
    exact ⟨same.array, same.regencnt⟩
  case rdsr =>
    rintro sr rfl
    have same := sameGenerator_of_rdsr h
    exact ⟨same.array, same.regencnt⟩
  case seed =>
    rintro n rfl
    rw [exec_seed] at h
    obtain rfl := Host.Outcome.next.inj h
    exact ⟨rfl, rfl⟩
  case illegal =>
    intro s t w rest e hhost hdecode h
    have same := sameGenerator_of_illegal_word hhost hdecode h
    exact ⟨same.array, same.regencnt, same.cursor⟩

/-- Settles O26: the phase is read off the cursor, which an answered draw advances by 1 modulo 624. -/
theorem phaseTransitions : Obligations.PhaseTransitions := by
  refine ⟨rfl, ?seed, ?draw⟩
  case seed =>
    intro n s t h
    rw [exec_seed] at h
    obtain rfl := Host.Outcome.next.inj h
    rfl
  case draw =>
    intro i s t v hd h hv
    obtain ⟨a, -, rfl⟩ := exec_draws_ok hd h hv
    have hcursor : (respond (.ok v) (afterDraw s a)).cursor.val = (s.cursor.val + 1) % 624 := afterDraw_cursor_val s a
    simp only [primed_eq_decide_val, hcursor, decide_eq_true_eq, decide_eq_false_iff_not]
    refine ⟨?_, ?_, ?_⟩ <;> omega

/-- Settles O46, clause by clause, as O25. -/
theorem countersCountDraws : Obligations.CountersCountDraws := by
  refine ⟨rfl, rfl, fun i s t h => ⟨?seed, ?draw, ?fault, ?rdsr⟩, ?illegal⟩
  case seed =>
    rintro n rfl
    rw [exec_seed] at h
    obtain rfl := Host.Outcome.next.inj h
    exact ⟨rfl, rfl⟩
  case draw =>
    rintro hd ⟨v, hv⟩
    obtain ⟨a, -, rfl⟩ := exec_draws_ok hd h hv
    exact ⟨BitVec.toNat_add s.drawcnt 1#32, regencntAfterDraw_toNat s⟩
  case fault =>
    intro k hk
    have same := sameGenerator_of_faulted h hk
    exact ⟨same.drawcnt, same.regencnt⟩
  case rdsr =>
    rintro sr rfl
    have same := sameGenerator_of_rdsr h
    exact ⟨same.drawcnt, same.regencnt⟩
  case illegal =>
    intro s t w rest e hhost hdecode h
    have same := sameGenerator_of_illegal_word hhost hdecode h
    exact ⟨same.drawcnt, same.regencnt⟩

end Sys2Proof.Proofs
end

section
/-! PROOF. The status registers bit by bit (rules R31, R150). -/

namespace Sys2Proof.Proofs

open Sys2Proof.Machine Sys2Proof.Laws

/-- A flag at position `n` is bit `n` of its word, and every other bit of it is 0. -/
theorem getLsbD_flagBit (b : Bool) (n m : Nat) : (flagBit b n).getLsbD m = (decide (m < 32) && decide (m = n) && b) := by
  rcases Nat.lt_trichotomy m n with h | rfl | h
  · simp [flagBit, h, h.ne]
  · simp [flagBit]
  · have hpos : m - n ≠ 0 := by omega
    simp [flagBit, h.ne', hpos]

/-- `STATUS` bit by bit: the flags at their positions, every other bit 0. -/
theorem getLsbD_statusWord (s : State) (b : Nat) :
    (statusWord s).getLsbD b = (decide (b < 32) &&
      (decide (b = 0) && s.seeded || decide (b = 1) && primed s || decide (b = 4) && s.fIllegal ||
        decide (b = 5) && s.fUnseeded || decide (b = 6) && s.fRange || decide (b = 7) && s.fCp)) := by
  simp only [statusWord, BitVec.getLsbD_or, getLsbD_flagBit, Bool.and_assoc, Bool.and_or_distrib_left]

/-- Bits 31:8 of `STATUS` are reserved. -/
theorem statusWord_reserved (s : State) {b : Nat} (hb : 8 ≤ b) : (statusWord s).getLsbD b = false := by
  have hne (k : Nat) (hk : k < 8) : b ≠ k := by omega
  simp [getLsbD_statusWord, hne]

/-- The cursor is below 2^10. -/
theorem cursorWord_toNat (s : State) : (cursorWord s).toNat = s.cursor.val :=
  Nat.mod_eq_of_lt (by omega)

/-- Bits 9:0 of `CURSOR` are the cursor. -/
theorem cursorWord_low (s : State) : ((cursorWord s).extractLsb' 0 10).toNat = s.cursor.val := by
  rw [BitVec.extractLsb'_toNat, cursorWord_toNat, Nat.shiftRight_zero]
  exact Nat.mod_eq_of_lt (by omega)

/-- Bits 31:10 of `CURSOR` are reserved. -/
theorem cursorWord_reserved (s : State) {b : Nat} (hb : 10 ≤ b) : (cursorWord s).getLsbD b = false := by
  have hpow : 2 ^ 10 ≤ 2 ^ b := Nat.pow_le_pow_right (by decide) hb
  exact Nat.testBit_lt_two_pow (by rw [cursorWord_toNat]; omega)

/-- Just after `SEED` a block with no fault flag set shows `SEEDED` and `PRIMED` (rule R31). -/
theorem statusWord_afterSeed_reset (n : Word) (r : Response) : statusWord (respond r (afterSeed n State.reset)) = 3#32 := by
  have hfields : statusWord (respond r (afterSeed n State.reset)) =
      flagBit true 0 ||| flagBit true 1 ||| flagBit false 4 ||| flagBit false 5 ||| flagBit false 6 ||| flagBit false 7 := rfl
  exact hfields.trans (by decide)

/-- Settles O44: each register's fields, then the two values the rule prints. -/
theorem statusRegisterFields : Obligations.StatusRegisterFields := by
  refine ⟨?status, ?cursor, ?drawcnt, ?regencnt, ?reset, ?seeded⟩
  case status =>
    intro s t v h hv
    obtain rfl := rdsr_response (w := statusWord s) rfl h hv
    refine ⟨?_, ?_, ?_, ?_, ?_, ?_, ?_, ?_, fun _ hb _ => statusWord_reserved s hb⟩
    all_goals
      rw [getLsbD_statusWord, primed_eq_decide_val]
      simp
  case cursor =>
    intro s t v h hv
    obtain rfl := rdsr_response (w := cursorWord s) rfl h hv
    exact ⟨cursorWord_low s, fun _ hb _ => cursorWord_reserved s hb⟩
  case drawcnt => exact fun s t v => rdsr_response rfl
  case regencnt => exact fun s t v => rdsr_response rfl
  case reset => exact ⟨_, exec_rdsr_some rfl, rfl⟩
  case seeded =>
    intro n
    have hrdsr := exec_rdsr_some (sr := 0#32) (congrArg some (statusWord_afterSeed_reset n (.ok 0#32)))
    have hsend : sendAll [.seed n, .rdsr 0#32] State.reset =
        .next (respond (.ok 3#32) (respond (.ok 0#32) (afterSeed n State.reset))) := by
      simp only [sendAll, exec_seed, hrdsr]
    exact ⟨_, hsend, rfl⟩

end Sys2Proof.Proofs
end

section
/-! PROOF. Running the block on the words of a list of commands (rules R5, R58): the word of a well-formed command decodes to it, and a
command neither reads nor writes the host's moves. -/

namespace Sys2Proof.Proofs

open Sys2Proof.Machine Sys2Proof.Laws

/-- Decoding undoes encoding for a well-formed command, row by row of the opcode map (rules R74, R79). -/
theorem decode_encode {i : Instr} (h : i.wellFormed = true) : decode (encode i) = .ok i := by
  cases i with
  | seed n => simp [encode, decode, decodeFA]
  | nextint lo hi => simp [encode, decode]
  | enc c => simp [encode, decode, decodeFA]
  | dec c => simp [encode, decode, decodeFA]
  | rdsr sr =>
    have hsr : sr.toNat < Config.statusRegisters := of_decide_eq_true h
    simp [encode, decode, decodeFSR, hsr]

/-! ### The host's moves as a frame: with other moves queued, a command does the same and leaves those queued (rules R6, R24) -/

/-- The outcome with `ms` as the host's moves in its next state, if it has one. -/
def outcomeWithHost (ms : List HostMove) : Host.Outcome State Fault Refusal → Host.Outcome State Fault Refusal
  | .next t => .next { t with host := ms }
  | .fault r => .fault r
  | .refused r => .refused r

section Frame
variable (ms : List HostMove) (s : State)

theorem raiseFault_withHost (k : FaultKind) :
    raiseFault k { s with host := ms } = { raiseFault k s with host := ms } := by
  cases k <;> rfl

theorem raises_withHost (i : Instr) : raises i { s with host := ms } = raises i s := by
  cases i <;> rfl

theorem drawThenRespond_withHost (f : Word → Word) :
    drawThenRespond f { s with host := ms } = outcomeWithHost ms (drawThenRespond f s) := by
  obtain ha | ⟨a, ha⟩ := s.array.eq_none_or_eq_some
  · rw [drawThenRespond_none ha, drawThenRespond_none (s := { s with host := ms }) ha]
    rfl
  · rw [drawThenRespond_some ha, drawThenRespond_some (s := { s with host := ms }) ha]
    rfl

/-- A drawing command with no fault to raise. -/
theorem exec_draws_withHost {i : Instr} (hd : draws i = true) (hr : raises i s = none) :
    exec i { s with host := ms } = outcomeWithHost ms (exec i s) := by
  rw [exec_draws hd hr, exec_draws hd ((raises_withHost ms s i).trans hr), drawThenRespond_withHost]

theorem exec_withHost (i : Instr) : exec i { s with host := ms } = outcomeWithHost ms (exec i s) := by
  cases hr : raises i s with
  | some k =>
    rw [exec_raises hr, exec_raises ((raises_withHost ms s i).trans hr), raiseFault_withHost]
    rfl
  | none =>
    cases i with
    | seed n => rfl
    | nextint lo hi | enc c | dec c => exact exec_draws_withHost ms s rfl hr
    | rdsr sr =>
      obtain ⟨v, hv⟩ : ∃ v, statusRegister sr s = some v := by
        simpa [raises, Option.isSome_iff_exists] using hr
      rw [exec_rdsr_some hv, exec_rdsr_some (s := { s with host := ms }) hv]
      rfl

end Frame

/-- The first command's step: its word is taken off the host's list, and it is executed with the other words still queued. -/
theorem step_movesOf_cons {i : Instr} (hi : i.wellFormed = true) (is : List Instr) (s : State) (rest : List HostMove) :
    step { s with host := movesOf (i :: is) ++ rest } = outcomeWithHost (movesOf is ++ rest) (exec i s) := by
  rw [step_of_legal (s := { s with host := movesOf (i :: is) ++ rest }) rfl (decode_encode hi)]
  exact exec_withHost (movesOf is ++ rest) s i

/-- Settles O12, by induction on the commands: the step on the first word is its execution, apart from the words still queued, and these
are the words of the other commands. -/
theorem commandsRunInIssueOrder : Obligations.CommandsRunInIssueOrder := by
  intro is s rest hwf
  induction is generalizing s with
  | nil => rfl
  | cons i is ih =>
    obtain ⟨hi, his⟩ := List.forall_mem_cons.mp hwf
    rw [List.length_cons, run_succ, step_movesOf_cons hi, sendAll, exec_withHost rest s i]
    cases exec i s with
    | next t => exact ih t his
    | fault r => rfl
    | refused r => rfl

end Sys2Proof.Proofs
end

section
/-! PROOF. The opcode map (30_encoding.md, rules R70 to R76): decoding inverts encoding, a word decodes exactly when it fits a row of the
map, and a word that fits none raises `ILLEGAL`. -/

namespace Sys2Proof.Proofs

open Sys2Proof.Machine Sys2Proof.Laws

/-- Settles O2, by the round trip of each row of the opcode map. -/
theorem decodeEncodeRoundTrip : Obligations.DecodeEncodeRoundTrip :=
  fun _ hwf => decode_encode hwf

/-! ### Decoding, then encoding (rules R74, R79) -/

section Decoding
variable {w : CommandWord} {i : Instr}

theorem commandWord_eq_iff {op : BitVec 8} {a b : Word} :
    commandWord op a b = w ↔ opField w = op ∧ aField w = a ∧ bField w = b := by
  constructor
  · rintro rfl
    simp
  · rintro ⟨rfl, rfl, rfl⟩
    exact commandWord_fields w

/-- A word that decodes in format `FA` is determined by `OP` and `A`. -/
theorem decodeFA_eq_ok {op : BitVec 8} {mk : Word → Instr} (hop : opField w = op) (h : decodeFA mk w = .ok i) :
    mk (aField w) = i ∧ commandWord op (aField w) 0#32 = w := by
  unfold decodeFA at h
  split at h
  next hb => exact ⟨Except.ok.inj h, commandWord_eq_iff.mpr ⟨hop, rfl, hb⟩⟩
  next => cases h

/-- A word that decodes in format `FSR` is determined by `OP` and `A`, and its index names a register. -/
theorem decodeFSR_eq_ok {op : BitVec 8} (hop : opField w = op) (h : decodeFSR w = .ok i) :
    .rdsr (aField w) = i ∧ (aField w).toNat < Config.statusRegisters ∧ commandWord op (aField w) 0#32 = w := by
  unfold decodeFSR at h
  split at h
  next hb =>
    split at h
    next ha => exact ⟨Except.ok.inj h, ha, commandWord_eq_iff.mpr ⟨hop, rfl, hb⟩⟩
    next => cases h
  next => cases h

/-- Encoding undoes decoding, and only well-formed commands are decoded. -/
theorem encode_of_decode (h : decode w = .ok i) : i.wellFormed = true ∧ encode i = w := by
  unfold decode at h
  split_ifs at h with hop hop hop hop hop
  · obtain ⟨rfl, hw⟩ := decodeFA_eq_ok hop h
    exact ⟨rfl, hw⟩
  · obtain rfl := Except.ok.inj h
    exact ⟨rfl, commandWord_eq_iff.mpr ⟨hop, rfl, rfl⟩⟩
  · obtain ⟨rfl, hw⟩ := decodeFA_eq_ok hop h
    exact ⟨rfl, hw⟩
  · obtain ⟨rfl, hw⟩ := decodeFA_eq_ok hop h
    exact ⟨rfl, hw⟩
  · obtain ⟨rfl, ha, hw⟩ := decodeFSR_eq_ok hop h
    exact ⟨decide_eq_true ha, hw⟩

theorem decode_eq_ok_iff : decode w = .ok i ↔ i.wellFormed = true ∧ encode i = w :=
  ⟨encode_of_decode, fun ⟨hwf, hw⟩ => hw ▸ decode_encode hwf⟩

end Decoding

/-- Settles O3, by the converse of the round trip. -/
theorem decodedWordIsTheEncoding : Obligations.DecodedWordIsTheEncoding :=
  fun _ _ hdecode => encode_of_decode hdecode

/-! ### The rows of the opcode map (rule R74) -/

/-- The row of the opcode map, mask and match, for an instruction's operation. -/
def opcodeRow (i : Instr) : CommandWord × CommandWord := (rowMask i, rowMatch i)

/-- The instruction with the same operation whose operands are the fields of `w` (rules R71, R73). -/
def withFieldsOf (w : CommandWord) : Instr → Instr
  | .seed _ => .seed (aField w)
  | .nextint _ _ => .nextint (aField w) (bField w)
  | .enc _ => .enc (aField w)
  | .dec _ => .dec (aField w)
  | .rdsr _ => .rdsr (aField w)

theorem mem_opcodeRows_iff {r : CommandWord × CommandWord} : r ∈ opcodeRows ↔ ∃ i, r = opcodeRow i := by
  constructor
  · intro hr
    simp only [opcodeRows, List.mem_cons, List.not_mem_nil, or_false] at hr
    obtain rfl | rfl | rfl | rfl | rfl := hr
    exacts [⟨.seed 0#32, rfl⟩, ⟨.nextint 0#32 0#32, rfl⟩, ⟨.enc 0#32, rfl⟩, ⟨.dec 0#32, rfl⟩, ⟨.rdsr 0#32, rfl⟩]
  · rintro ⟨i, rfl⟩
    cases i <;> simp [opcodeRows, opcodeRow, rowMask, rowMatch]

section Rows
variable {w : CommandWord}

@[simp] theorem opcodeRow_withFieldsOf (i : Instr) : opcodeRow (withFieldsOf w i) = opcodeRow i := by
  cases i <;> rfl

@[simp] theorem withFieldsOf_withFieldsOf (i : Instr) : withFieldsOf w (withFieldsOf w i) = withFieldsOf w i := by
  cases i <;> rfl

/-- A word is a command exactly when it fits the command's row and holds its operands. -/
theorem decode_eq_ok_iff_fits {i : Instr} :
    decode w = .ok i ↔ w &&& (opcodeRow i).1 = (opcodeRow i).2 ∧ i = withFieldsOf w i := by
  obtain ⟨hseed, hnextint, henc, hdec, hrdsr⟩ := rowMatch_words
  rw [decode_eq_ok_iff]
  cases i with
  | seed n | enc n | dec n =>
    simp only [opcodeRow, rowMask, rowMatch, hseed, henc, hdec, fits_FA, Instr.wellFormed, encode, commandWord_eq_iff,
      withFieldsOf, Instr.seed.injEq, Instr.enc.injEq, Instr.dec.injEq]
    tauto
  | nextint lo hi =>
    simp only [opcodeRow, rowMask, rowMatch, hnextint, fits_FAB, Instr.wellFormed, encode, commandWord_eq_iff, withFieldsOf,
      Instr.nextint.injEq]
    tauto
  | rdsr sr =>
    simp only [opcodeRow, rowMask, rowMatch, hrdsr, fits_FSR, Instr.wellFormed, decide_eq_true_eq, encode,
      commandWord_eq_iff, withFieldsOf, Instr.rdsr.injEq]
    constructor
    · rintro ⟨ha, hop, rfl, hb⟩
      exact ⟨⟨hop, ha, hb⟩, rfl⟩
    · rintro ⟨⟨hop, ha, hb⟩, rfl⟩
      exact ⟨ha, hop, rfl, hb⟩

theorem decode_of_fits {r : CommandWord × CommandWord} (hr : r ∈ opcodeRows) (hfits : w &&& r.1 = r.2) :
    ∃ i, decode w = .ok i ∧ r = opcodeRow i := by
  obtain ⟨i, rfl⟩ := mem_opcodeRows_iff.mp hr
  exact ⟨withFieldsOf w i, decode_eq_ok_iff_fits.mpr (by simpa using hfits), (opcodeRow_withFieldsOf i).symm⟩

theorem fits_of_decode {i : Instr} (h : decode w = .ok i) : ∃ r ∈ opcodeRows, w &&& r.1 = r.2 :=
  ⟨opcodeRow i, mem_opcodeRows_iff.mpr ⟨i, rfl⟩, (decode_eq_ok_iff_fits.mp h).1⟩

/-- The row a word fits is the row of the command it decodes to. -/
theorem row_unique {r r' : CommandWord × CommandWord} (hr : r ∈ opcodeRows) (hr' : r' ∈ opcodeRows)
    (hfits : w &&& r.1 = r.2) (hfits' : w &&& r'.1 = r'.2) : r = r' := by
  obtain ⟨i, hi, rfl⟩ := decode_of_fits hr hfits
  obtain ⟨j, hj, rfl⟩ := decode_of_fits hr' hfits'
  obtain rfl : i = j := Except.ok.inj (hi.symm.trans hj)
  rfl

theorem fitting_rows_length_le_one (w : CommandWord) : (opcodeRows.filter fun r => w &&& r.1 = r.2).length ≤ 1 := by
  have hnodup : (opcodeRows.filter fun r => w &&& r.1 = r.2).Nodup := List.Nodup.filter _ (by decide)
  rw [← List.toFinset_card_of_nodup hnodup, Finset.card_le_one]
  simp only [List.mem_toFinset, List.mem_filter, decide_eq_true_eq]
  rintro r ⟨hr, hfits⟩ r' ⟨hr', hfits'⟩
  exact row_unique hr hr' hfits hfits'

end Rows

/-- Settles O4, by the rows of the map: what a word decodes to fixes the row it fits. -/
theorem decodeFollowsOpcodeMap : Obligations.DecodeFollowsOpcodeMap := by
  intro w
  refine ⟨fun n => ?_, fun lo hi => ?_, fun c => ?_, fun c => ?_, fun sr => ?_, fitting_rows_length_le_one w⟩
  all_goals
    rw [decode_eq_ok_iff_fits]
    refine and_congr_right fun _ => ?_
    simp [withFieldsOf, aField, bField]

/-! ### Illegal words (rules R75, R76, R161) -/

/-- The step on a word that is no command. -/
theorem step_of_no_command {s : State} {w : CommandWord} {rest : List HostMove} (hhost : s.host = .command w :: rest)
    (hno : ∀ i, decode w ≠ .ok i) :
    step s = .next { s with host := rest, fIllegal := true, responses := s.responses ++ [.fault .illegal] } := by
  cases hdecode : decode w with
  | ok i => exact absurd hdecode (hno i)
  | error e => exact step_of_illegal hhost hdecode

theorem opField_encode (i : Instr) : 1 ≤ (opField (encode i)).toNat ∧ (opField (encode i)).toNat ≤ 5 := by
  cases i <;> simp [encode]

/-- Settles O5: what decodes fits a row, and what fits a row decodes to a command, whose `OP` is 1 to 5. -/
theorem unmatchedWordRaisesIllegal : Obligations.UnmatchedWordRaisesIllegal := by
  refine ⟨fun s w rest hhost hunmatched => step_of_no_command hhost fun i hdecode => ?step, fun w hop r hr hfits => ?op,
    fun w => ?total⟩
  case step =>
    obtain ⟨r, hr, hfits⟩ := fits_of_decode hdecode
    exact hunmatched r hr hfits
  case op =>
    obtain ⟨i, hdecode, -⟩ := decode_of_fits hr hfits
    obtain ⟨-, rfl⟩ := encode_of_decode hdecode
    have hlegal := opField_encode i
    unfold opField at hlegal
    omega
  case total =>
    refine or_iff_not_imp_left.mpr fun hno r hr hfits => hno ?_
    obtain ⟨i, hdecode, -⟩ := decode_of_fits hr hfits
    exact ⟨i, hdecode⟩

/-- The must-be-zero fields of a command's word are zero, and its index is below 4, whatever the operation (rule R76). -/
theorem fields_of_decode {op : BitVec 8} {a b : Word} {i : Instr} (h : decode (commandWord op a b) = .ok i) :
    (op.toNat ≠ 2 → b = 0#32) ∧ (op.toNat = 5 → a.toNat < 4) := by
  obtain ⟨hwf, hw⟩ := encode_of_decode h
  cases i with
  | seed n | enc n | dec n | nextint n m =>
    obtain ⟨rfl, rfl, rfl⟩ := (commandWord_inj ..).mp hw
    simp
  | rdsr sr =>
    obtain ⟨rfl, rfl, rfl⟩ := (commandWord_inj ..).mp hw
    simpa [Instr.wellFormed] using hwf

/-- Settles O6: a word that decodes has zeros where it must. -/
theorem nonzeroFieldRaisesIllegal : Obligations.NonzeroFieldRaisesIllegal := by
  intro s op a b rest hhost hfield
  refine step_of_no_command hhost fun i hdecode => ?_
  obtain ⟨hb, ha⟩ := fields_of_decode hdecode
  obtain ⟨hop, hbne⟩ | ⟨hop, hlarge⟩ := hfield
  · exact hbne (hb (by omega))
  · have := ha hop
    omega

/-! ### Responses (rules R72, R160) -/

theorem exec_appends_response {i : Instr} {s t : State} (h : exec i s = .next t) :
    ∃ r, t.responses = s.responses ++ [r] ∧ ∀ n, i = .seed n → r = .ok 0#32 := by
  rcases exec_cases h with ⟨n, -, rfl⟩ | ⟨k, hk, rfl⟩ | ⟨a, hd, -, -, rfl⟩ | ⟨sr, v, rfl, -, rfl⟩
  · exact ⟨.ok 0#32, rfl, fun _ _ => rfl⟩
  · refine ⟨.fault k, raiseFault_responses k s, ?_⟩
    rintro n rfl
    cases hk
  · refine ⟨_, rfl, ?_⟩
    rintro n rfl
    cases hd
  · exact ⟨.ok v, rfl, fun _ hn => by cases hn⟩

theorem toWord_ok_toNat (v : Word) : (Response.ok v).toWord.toNat = 0 * 2 ^ 32 + v.toNat :=
  toNat_append_eq 0x00#8 v

theorem toWord_fault_toNat (k : FaultKind) : (Response.fault k).toWord.toNat = (faultCode k).toNat * 2 ^ 32 :=
  (toNat_append_eq (faultCode k) 0#32).trans (by simp)

/-- Settles O11: an illegal word is answered by its fault, and a command by one response. -/
theorem oneResponsePerCommand : Obligations.OneResponsePerCommand := by
  refine ⟨fun s t w rest hhost hstep => ?_, toWord_ok_toNat, toWord_fault_toNat .illegal, toWord_fault_toNat .unseeded,
    toWord_fault_toNat .range, toWord_fault_toNat .cpRange⟩
  cases hdecode : decode w with
  | error e =>
    rw [step_of_illegal hhost hdecode] at hstep
    obtain rfl := Host.Outcome.next.inj hstep
    exact ⟨.fault .illegal, raiseFault_responses .illegal { s with host := rest }, by simp⟩
  | ok i =>
    rw [step_of_legal hhost hdecode] at hstep
    obtain ⟨r, hr, hseed⟩ := exec_appends_response hstep
    exact ⟨r, hr, fun ⟨n, hn⟩ => hseed n (Except.ok.inj hn)⟩

end Sys2Proof.Proofs
end

section
/-! PROOF. The assembler (30_encoding.md section 6, rules R79 to R81): its operands, the expansions of the pseudo-instructions, and the
worked encodings. -/

namespace Sys2Proof.Proofs

open Sys2Proof.Machine Sys2Proof.Laws

/-! ### Lines with an operand rejected (rule R81) -/

section Rejected
variable {x : Int} (h : wordOperand x = none)
include h

theorem assemble_nextint_eq_none_left (y : Int) : assemble (.nextint x y) = none := by
  simp [assemble, lineCommands, h]

theorem assemble_nextint_eq_none_right (y : Int) : assemble (.nextint y x) = none := by
  simp [assemble, lineCommands, h]

theorem assemble_enc_eq_none : assemble (.enc x) = none := by
  simp [assemble, lineCommands, h]

theorem assemble_dec_eq_none : assemble (.dec x) = none := by
  simp [assemble, lineCommands, h]

theorem assemble_rdsr_eq_none : assemble (.rdsr x) = none := by
  simp [assemble, lineCommands, h]

end Rejected

theorem assemble_seed (k : Int) : assemble (.seed k) = some [.command (encode (.seed (seedOperand k)))] := rfl

/-- Settles O56, by what the assembler makes of one operand in range and of one out of range. -/
theorem assemblerOperands : Obligations.AssemblerOperands := by
  refine ⟨fun k => ⟨seedOperand k, assemble_seed k, seedOperand_toNat k⟩, fun a b => ?taken, fun a b hout => ?rejected⟩
  case taken =>
    have ha := wordOperand_toNat a
    exact ⟨assemble_nextint ha (wordOperand_toNat b), assemble_enc ha, assemble_dec ha, assemble_rdsr ha⟩
  case rejected =>
    have ha := wordOperand_out_of_range a hout
    exact ⟨assemble_nextint_eq_none_left ha b, assemble_nextint_eq_none_right ha b, assemble_enc_eq_none ha,
      assemble_dec_eq_none ha, assemble_rdsr_eq_none ha⟩

/-! ### Pseudo-instructions (rule R80) -/

theorem assembleAll_cons {l : SourceLine} {ls : List SourceLine} {ms ns : List HostMove} (hl : assemble l = some ms)
    (hls : assembleAll ls = some ns) : assembleAll (l :: ls) = some (ms ++ ns) := by
  simp [assembleAll, hl, hls]

/-- One line per character, each of them one command, is one command per character. -/
theorem assembleAll_map {line : Word → SourceLine} {instr : Word → Instr}
    (h : ∀ c, assemble (line c) = some [.command (encode (instr c))]) (text : List Word) :
    assembleAll (text.map line) = some (movesOf (text.map instr)) := by
  induction text with
  | nil => rfl
  | cons c cs ih => exact assembleAll_cons (h c) ih

/-- Settles O57: a message's line and its lines one by one both stand for `SEED` and one command per character. -/
theorem pseudoInstructionExpansions : Obligations.PseudoInstructionExpansions := by
  refine ⟨?draw, ?shift, fun key text => ⟨?encrypt, ?decrypt⟩, fun key => rfl⟩
  case draw => exact (assemble_nextint (a := 0#32) (b := 0xFFFFFFFF#32) (by decide) (by decide)).symm
  case shift => exact (assemble_nextint (a := 1#32) (b := 4#32) (by decide) (by decide)).symm
  case encrypt =>
    rw [assemble_encrypt (wordOperands_map text)]
    have htext := assembleAll_map (fun c => assemble_enc (wordOperand_toNat c)) text
    exact (assembleAll_cons (assemble_seed key) htext).symm
  case decrypt =>
    rw [assemble_decrypt (wordOperands_map text)]
    have htext := assembleAll_map (fun c => assemble_dec (wordOperand_toNat c)) text
    exact (assembleAll_cons (assemble_seed key) htext).symm

/-! ### Worked encodings (rule R79) -/

/-- Settles O58, line by line: the line that each text reads as, evaluated. -/
theorem workedEncodings : Obligations.WorkedEncodings := by
  refine ⟨?words, .reset, by decide, rfl⟩
  case words =>
    simp only [List.forall_mem_cons]
    refine ⟨⟨.seed 5, ?_⟩, ⟨.seed (-1), ?_⟩, ⟨.seed 4294967301, ?_⟩, ⟨.nextint 1 4, ?_⟩, ⟨.draw, ?_⟩, ⟨.enc 0x41, ?_⟩,
      ⟨.dec 0x42, ?_⟩, ⟨.rdsr 3, ?_⟩, List.forall_mem_nil _⟩
    all_goals decide

end Sys2Proof.Proofs
end

section
/-! PROOF. The seeding command (40_seed.md, rules R90 to R94): the seeding transform in exact arithmetic, and what `SEED` leaves in the
generator and keeps outside it. -/

namespace Sys2Proof.Proofs

open Sys2Proof.Machine Sys2Proof.Laws

/-! ### The seeding transform on numbers (rule R91) -/

/-- Only the product is truncated: the two bits that the shift leaves and an index below 624 have a sum that fits a word. -/
theorem seedStep_toNat (p : Word) {i : Nat} (hi : i < 624) :
    (seedStep p i).toNat = 1812433253 * p.toNat % 2 ^ 32 ^^^ (p.toNat / 2 ^ 30 + i) := by
  have hproduct : (seedMultiplier * p).toNat = 1812433253 * p.toNat % 2 ^ 32 := BitVec.toNat_mul ..
  have hindex : (BitVec.ofNat 32 i).toNat = i := Nat.mod_eq_of_lt (by omega)
  have hshift : (p >>> 30).toNat = p.toNat / 2 ^ 30 := by rw [BitVec.toNat_ushiftRight, Nat.shiftRight_eq_div_pow]
  have hsum : ((p >>> 30) + BitVec.ofNat 32 i).toNat = p.toNat / 2 ^ 30 + i := by
    rw [BitVec.toNat_add, hshift, hindex]
    omega
  rw [seedStep, BitVec.toNat_xor, hproduct, hsum]

/-- The recurrence of the seeded words, read from the word it gives. -/
theorem seedFill_toNat (n : Word) (i : Nat) (h1 : 1 ≤ i) (h : i < 624) :
    (seedFill n)[i].toNat =
      1812433253 * (seedFill n)[i - 1].toNat % 2 ^ 32 ^^^ ((seedFill n)[i - 1].toNat / 2 ^ 30 + i) := by
  obtain ⟨j, rfl⟩ := Nat.exists_eq_add_of_le' h1
  rw [seedFill_succ n j (by omega), seedStep_toNat _ h]
  rfl

theorem seedFill_one (n : Word) : (seedFill n)[1] = seedStep n 1 := seedFill_succ n 0 (by decide)

theorem seedFill_two (n : Word) : (seedFill n)[2] = seedStep (seedStep n 1) 2 :=
  (seedFill_succ n 1 (by decide)).trans (by rw [seedFill_one])

/-! ### The state `SEED` leaves (rules R90, R92) -/

section Seeded
variable (n : Word) (s : State)

/-- The generator that `SEED n` leaves is a function of `n` alone. -/
theorem sameGenerator_afterSeed (t : State) :
    SameGenerator (respond (.ok 0#32) (afterSeed n s)) (respond (.ok 0#32) (afterSeed n t)) :=
  ⟨rfl, rfl, rfl, rfl, rfl⟩

theorem sameFlags_afterSeed : SameFlags (respond (.ok 0#32) (afterSeed n s)) s :=
  ⟨rfl, rfl, rfl, rfl⟩

end Seeded

/-- Settles O19, by the seeding transform on numbers. -/
theorem seedFillsByRecurrence : Obligations.SeedFillsByRecurrence :=
  fun n s => ⟨_, seedFill n, exec_seed n s, rfl, rfl, seedFill_zero n, seedFill_toNat n⟩

/-- Settles O18: `SEED` has one case, and its equation is the statement. -/
theorem seedCompletes : Obligations.SeedCompletes := exec_seed

/-- Settles O20, by the recurrence at word 1 and by the transform of the printed words. -/
theorem seedFirstWords : Obligations.SeedFirstWords := by
  refine ⟨fun n s => ⟨_, seedFill n, exec_seed n s, rfl, seedFill_zero n, ?closed⟩,
    fun s => ⟨_, seedFill 0#32, exec_seed _ s, rfl, ?zero_one, ?zero_two⟩,
    fun s => ⟨_, seedFill 0x80000000#32, exec_seed _ s, rfl, ?top⟩⟩
  case closed => exact seedFill_toNat n 1 (by decide) (by decide)
  case zero_one => exact (seedFill_one 0#32).trans (by decide)
  case zero_two => exact (seedFill_two 0#32).trans (by decide)
  case top => exact (seedFill_one 0x80000000#32).trans (by decide)

/-- Settles O21: `SEED n` leaves one and the same generator from every state, and keeps the flags of each; so the commands before it do
not matter. -/
theorem seedIgnoresHistory : Obligations.SeedIgnoresHistory := by
  intro m n is s t _
  exact ⟨_, _, _, exec_seed n t, exec_seed n State.reset, exec_seed n _, sameGenerator_afterSeed n t State.reset,
    sameFlags_afterSeed n t, sameGenerator_afterSeed n _ t, sameFlags_afterSeed n _⟩

/-- Settles O22: the state that `SEED` leaves has the flags and the host's moves of the state before it. -/
theorem seedFrame : Obligations.SeedFrame := by
  intro n s t h
  rw [exec_seed] at h
  obtain rfl := Host.Outcome.next.inj h
  exact ⟨sameFlags_afterSeed n s, rfl⟩

end Sys2Proof.Proofs
end

section
/-! PROOF. Regeneration (41_regen.md, rules R101 to R103): the array that a draw at cursor 0 leaves is the one the in-place loop makes, and
each of its words is the single-assignment form of the three words its iteration reads. -/

namespace Sys2Proof.Proofs

open Sys2Proof.Machine Sys2Proof.Laws

/-! ### One iteration (rule R103) -/

/-- Bit 0 of `y` is bit 0 of the next word: the upper mask takes only bit 31 of the word itself. -/
theorem getLsbD_zero_masked (x x1 : Word) : ((x &&& upperMask) ||| (x1 &&& lowerMask)).getLsbD 0 = x1.getLsbD 0 := by
  have hupper : upperMask.getLsbD 0 = false := rfl
  have hlower : lowerMask.getLsbD 0 = true := rfl
  rw [BitVec.getLsbD_or, BitVec.getLsbD_and, BitVec.getLsbD_and, hupper, hlower, Bool.and_false, Bool.and_true, Bool.false_or]

/-- The two assignments of an iteration are the one of rule R103. -/
theorem twist_eq_regenWord (x x1 m : Word) : twist x x1 m = regenWord x x1 m := by
  simp only [twist, regenWord, getLsbD_zero_masked]
  split
  · rfl
  · exact (BitVec.xor_zero ..).symm

/-! ### The draw that regenerates (rules R101, R102) -/

/-- A drawing command with good operands, on a seeded block whose array holds values, is answered and leaves the state after a draw. -/
theorem exec_good_draw {i : Instr} {s : State} {a : StateArray} (hd : draws i = true) (hg : operandsGood i = true)
    (hs : s.seeded = true) (ha : s.array = some a) :
    exec i s = .next (respond (.ok (drawResult i (drawnWord a s.cursor))) (afterDraw s a)) :=
  (exec_draws hd (raises_eq_none (fun _ => hs) hg)).trans (drawThenRespond_some ha _)

/-- Settles O23: the draw is answered, and at cursor 0 the array it leaves is the loop's (`regenArray_eq_regenLoop`). -/
theorem primedDrawRunsTheLoop : Obligations.PrimedDrawRunsTheLoop := by
  intro i s a hd hg hs ha hc
  have hprimed : s.cursor.val = 0 := congrArg Fin.val hc
  refine ⟨_, exec_good_draw hd hg hs ha, ?array, ?count, rfl, ⟨rfl, rfl, rfl, rfl⟩⟩
  case array => exact congrArg some (arrayForDraw_of_primed hprimed)
  case count => exact (regencntAfterDraw_toNat s).trans (if_pos hprimed)

/-- Settles O24, by the three index ranges of the regenerated array. -/
theorem regenerationReadsOldOrNew : Obligations.RegenerationReadsOldOrNew := by
  intro i s t old hd hg hs ha hc h
  rw [exec_good_draw hd hg hs ha] at h
  obtain rfl := Host.Outcome.next.inj h
  refine ⟨regenArray old, congrArg some (if_pos hc), fun j hj => ?low, fun j h1 hj => ?high, ?last⟩
  case low => exact (regenArray_low old j hj).trans (twist_eq_regenWord ..)
  case high => exact (regenArray_high old j h1 hj).trans (twist_eq_regenWord ..)
  case last => exact (regenArray_last old).trans (twist_eq_regenWord ..)

end Sys2Proof.Proofs
end

section
/-! PROOF. Tempering and the rescale (42_extract_nextint.md, rules R111, R114 to R116), in exact arithmetic on numbers. -/

namespace Sys2Proof.Proofs

open Sys2Proof.Machine Sys2Proof.Laws

/-! ### Tempering (rule R111) -/

/-- A mask of 32 bits takes nothing from the bits that a truncation drops. -/
theorem mod_and_word (x : Nat) (m : Word) : x % 2 ^ 32 &&& m.toNat = x &&& m.toNat := by
  have hle : x &&& m.toNat ≤ m.toNat := Nat.and_le_right
  calc x % 2 ^ 32 &&& m.toNat
      = x % 2 ^ 32 &&& m.toNat % 2 ^ 32 := by rw [Nat.mod_eq_of_lt m.isLt]
    _ = (x &&& m.toNat) % 2 ^ 32 := Nat.and_mod_two_pow.symm
    _ = x &&& m.toNat := Nat.mod_eq_of_lt (hle.trans_lt m.isLt)

theorem xor_shiftRight_toNat (y : Word) (k : Nat) : (y ^^^ (y >>> k)).toNat = y.toNat ^^^ y.toNat / 2 ^ k := by
  rw [BitVec.toNat_xor, BitVec.toNat_ushiftRight, Nat.shiftRight_eq_div_pow]

theorem xor_shiftLeft_and_toNat (y m : Word) (k : Nat) :
    (y ^^^ ((y <<< k) &&& m)).toNat = y.toNat ^^^ (y.toNat * 2 ^ k % 2 ^ 32 &&& m.toNat) := by
  rw [BitVec.toNat_xor, BitVec.toNat_and, BitVec.toNat_shiftLeft, Nat.shiftLeft_eq]

/-- Settles O29: the numbers are those of the four steps, each of which truncates before it masks. -/
theorem temperStepByStep : Obligations.TemperStepByStep := by
  refine ⟨fun y => ⟨_, _, _, rfl, rfl, ?maskB, rfl, ?maskC, ?result⟩, by decide⟩
  case maskB => exact congrArg _ (mod_and_word _ temperB)
  case maskC => exact congrArg _ (mod_and_word _ temperC)
  case result =>
    simp only [temper, xor_shiftRight_toNat, xor_shiftLeft_and_toNat]
    rfl

/-! ### The rescale (rules R114, R115) -/

section Rescale
variable {y y' lo hi : Word}

theorem le_rescale (h : lo.toNat ≤ hi.toNat) : lo.toNat ≤ (rescale y lo hi).toNat := by
  rw [rescale_toNat y lo hi h]
  exact Nat.le_add_right ..

theorem rescale_le (h : lo.toNat ≤ hi.toNat) : (rescale y lo hi).toNat ≤ hi.toNat := by
  have hq := rescale_quotient_le y.toNat (hi.toNat - lo.toNat) y.isLt
  rw [rescale_toNat y lo hi h]
  omega

theorem rescale_mono (h : lo.toNat ≤ hi.toNat) (hy : y.toNat ≤ y'.toNat) :
    (rescale y lo hi).toNat ≤ (rescale y' lo hi).toNat := by
  rw [rescale_toNat y lo hi h, rescale_toNat y' lo hi h]
  exact Nat.add_le_add_left (Nat.div_le_div_right (Nat.mul_le_mul_right _ hy)) _

theorem rescale_zero (h : lo.toNat ≤ hi.toNat) : rescale 0#32 lo hi = lo := by
  apply BitVec.eq_of_toNat_eq
  simp [rescale_toNat 0#32 lo hi h]

theorem rescale_allOnes (h : lo.toNat ≤ hi.toNat) : rescale 0xFFFFFFFF#32 lo hi = hi := by
  apply BitVec.eq_of_toNat_eq
  have hq : 4294967295 * (hi.toNat - lo.toNat) / 4294967295 = hi.toNat - lo.toNat := Nat.mul_div_right _ (by decide)
  rw [rescale_toNat _ lo hi h, show (0xFFFFFFFF#32).toNat = 4294967295 from rfl, hq]
  omega

/-- The quotient reaches the size of a range that is not degenerate only when `y` reaches the divisor. -/
theorem eq_allOnes_of_rescale_eq (h : lo.toNat < hi.toNat) (htop : rescale y lo hi = hi) : y = 0xFFFFFFFF#32 := by
  have hvalue := rescale_toNat y lo hi h.le
  rw [htop] at hvalue
  have hquotient : hi.toNat - lo.toNat ≤ y.toNat * (hi.toNat - lo.toNat) / 4294967295 := by omega
  have hproduct := (Nat.le_div_iff_mul_le (by decide)).mp hquotient
  rw [Nat.mul_comm] at hproduct
  have hdivisor : 4294967295 ≤ y.toNat := Nat.le_of_mul_le_mul_right hproduct (by omega)
  apply BitVec.eq_of_toNat_eq
  exact Nat.le_antisymm (Nat.le_of_lt_succ y.isLt) hdivisor

theorem rescale_degenerate (y lo : Word) : rescale y lo lo = lo := by
  apply BitVec.eq_of_toNat_eq
  simp [rescale_toNat y lo lo le_rfl]

theorem rescale_full (y : Word) : rescale y 0#32 0xFFFFFFFF#32 = y := by
  apply BitVec.eq_of_toNat_eq
  rw [rescale_toNat y _ _ (by decide)]
  simp

end Rescale

/-- Settles O30: the product of two numbers below 2^32 is below 2^64, and the rest is the exact quotient. -/
theorem rescaleIsExact : Obligations.RescaleIsExact := by
  intro y lo hi h
  refine ⟨rescale_toNat y lo hi h, ?product, rescale_quotient_le _ _ y.isLt, le_rescale h, rescale_le h⟩
  case product =>
    have hrange : hi.toNat - lo.toNat < 2 ^ 32 := (Nat.sub_le ..).trans_lt hi.isLt
    exact (Nat.mul_lt_mul'' y.isLt hrange).trans_eq (by norm_num)

/-- Settles O31, property by property. -/
theorem rescaleProperties : Obligations.RescaleProperties :=
  ⟨fun _ _ _ h => ⟨le_rescale h, rescale_le h⟩, fun _ _ _ _ => rescale_mono,
    fun _ _ h => ⟨rescale_zero h, rescale_allOnes h⟩, fun _ _ _ => eq_allOnes_of_rescale_eq, rescale_degenerate, rescale_full⟩

/-! ### The cipher's shift (rule R116) -/

theorem shiftOf_toNat (y : Word) : (shiftOf y).toNat = 1 + y.toNat / 1431655765 := by
  have h : (shiftOf y).toNat = 1 + y.toNat * 3 / 4294967295 := rescale_toNat y shiftMin shiftMax (by decide)
  omega

/-- The words of shift `v` are an interval of the 2^32 words, empty for `v = 0` and for `v > 4`. -/
theorem filter_shiftOf_eq_Ico (v : Nat) :
    ((Finset.range (2 ^ 32)).filter fun y => (shiftOf (BitVec.ofNat 32 y)).toNat = v) =
      Finset.Ico ((v - 1) * 1431655765) (min (v * 1431655765) (2 ^ 32)) := by
  ext y
  rw [Finset.mem_filter, Finset.mem_range, Finset.mem_Ico, shiftOf_toNat, BitVec.toNat_ofNat]
  constructor
  · rintro ⟨hy, hv⟩
    rw [Nat.mod_eq_of_lt hy] at hv
    omega
  · rintro ⟨hlow, hhigh⟩
    have hy : y < 2 ^ 32 := hhigh.trans_le (min_le_right ..)
    rw [Nat.mod_eq_of_lt hy]
    omega

/-- Settles O32: the shift is a quotient by 1431655765, a third of the divisor, so each shift has an interval of words. -/
theorem shiftTable : Obligations.ShiftTable := by
  refine ⟨fun y => ⟨rfl, ?_, shiftOf_toNat y⟩, fun y => ?_, fun v => ?_⟩
  · rw [shiftOf_toNat]
    omega
  · have hy := y.isLt
    rw [shiftOf_toNat]
    split_ifs <;> omega
  · rw [filter_shiftOf_eq_Ico, Nat.card_Ico]
    split_ifs <;> omega

end Sys2Proof.Proofs
end

section
/-! PROOF. The draws (42_extract_nextint.md, rules R110, R113, R118): the bounded draw, what a drawing command leaves unchanged, and the
sequence of drawn words as a function of the seed and the number of draws. -/

namespace Sys2Proof.Proofs

open Sys2Proof.Machine Sys2Proof.Laws

/-! ### The bounded draw (rule R118) -/

section Nextint
variable {lo hi : Word} {s : State} {a : StateArray}

theorem exec_nextint (hs : s.seeded = true) (ha : s.array = some a) (h : lo.toNat ≤ hi.toNat) :
    exec (.nextint lo hi) s = .next (respond (.ok (rescale (drawnWord a s.cursor) lo hi)) (afterDraw s a)) :=
  exec_good_draw rfl (decide_eq_true h) hs ha

/-- `DRAW`, the bounded draw on the full range, answers the tempered word (rules R80, R115). -/
theorem exec_nextint_full (hs : s.seeded = true) (ha : s.array = some a) :
    exec (.nextint 0#32 0xFFFFFFFF#32) s = .next (respond (.ok (drawnWord a s.cursor)) (afterDraw s a)) := by
  rw [exec_nextint hs ha (by decide), rescale_full]

end Nextint

/-- Settles O27, by the equation of the bounded draw. -/
theorem nextintCompletes : Obligations.NextintCompletes :=
  fun _ _ _ _ => exec_nextint

/-- Settles O28: the draw of each range, with the rescale on that range. -/
theorem nextintCornerRanges : Obligations.NextintCornerRanges := by
  intro lo s a hs ha
  refine ⟨⟨_, exec_nextint hs ha le_rfl, ?degenerate, BitVec.toNat_add s.drawcnt 1#32, afterDraw_cursor_val s a⟩,
    _, exec_nextint_full hs ha, rfl⟩
  case degenerate => rw [respond_responses, afterDraw_responses, rescale_degenerate]

/-! ### The frame of a drawing command -/

section DrawCases
variable {i : Instr} {s t : State}

/-- What a drawing command can do: raise one fault, or draw. -/
theorem exec_draw_cases (hd : draws i = true) (h : exec i s = .next t) :
    (∃ k, raises i s = some k ∧ t = raiseFault k s) ∨
    (∃ a, raises i s = none ∧ s.array = some a ∧ t = respond (.ok (drawResult i (drawnWord a s.cursor))) (afterDraw s a)) := by
  rcases exec_cases h with ⟨n, rfl, -⟩ | hfault | ⟨a, -, hr, ha, ht⟩ | ⟨sr, v, rfl, -⟩
  · cases hd
  · exact .inl hfault
  · exact .inr ⟨a, hr, ha, ht⟩
  · cases hd

/-- Why a drawing command raises a fault (rules R162 to R164); it never raises `ILLEGAL`. -/
def drawFaultReason (i : Instr) (s : State) : FaultKind → Prop
  | .illegal => False
  | .unseeded => s.seeded = false
  | .range => ∃ lo hi, i = .nextint lo hi ∧ hi.toNat < lo.toNat
  | .cpRange => ∃ c, (i = .enc c ∨ i = .dec c) ∧ ¬ c.toNat < 0x110000

theorem drawFaultReason_of_raises {k : FaultKind} (hd : draws i = true) (h : raises i s = some k) :
    drawFaultReason i s k := by
  cases i with
  | seed n | rdsr sr => cases hd
  | nextint lo hi =>
    simp only [raises] at h
    split_ifs at h with hs hlt
    · obtain rfl := Option.some.inj h
      exact hs
    · obtain rfl := Option.some.inj h
      exact ⟨lo, hi, rfl, hlt⟩
  | enc c | dec c =>
    simp only [raises] at h
    split_ifs at h with hs hc
    · obtain rfl := Option.some.inj h
      exact hs
    · obtain rfl := Option.some.inj h
      exact ⟨c, by simp, of_decide_eq_false hc⟩

/-- A flag whose fault is not raised keeps its value (rules R28, R165). -/
theorem flag_of_not_raised {k : FaultKind} (h : exec i s = .next t) (hk : raises i s ≠ some k) : flag k t = flag k s := by
  rcases exec_cases h with ⟨n, -, rfl⟩ | ⟨j, hj, rfl⟩ | ⟨a, -, -, -, rfl⟩ | ⟨sr, v, -, -, rfl⟩
  · cases k <;> rfl
  · have hne : k ≠ j := by
      rintro rfl
      exact hk hj
    rw [flag_raiseFault, decide_eq_false hne, Bool.false_or]
  · cases k <;> rfl
  · cases k <;> rfl

/-- What a drawing command keeps, whether it faults or draws (rules R110, R165). -/
theorem exec_draw_keeps (hd : draws i = true) (h : exec i s = .next t) :
    t.host = s.host ∧ t.seeded = s.seeded ∧ (s.cursor.val ≠ 0 → t.array = s.array ∧ t.regencnt = s.regencnt) := by
  rcases exec_draw_cases hd h with ⟨k, -, rfl⟩ | ⟨a, -, ha, rfl⟩
  · simp
  · refine ⟨rfl, rfl, fun hc => ?_⟩
    simp [ha, arrayForDraw_of_draining hc, regencntAfterDraw_of_draining hc]

end DrawCases

/-- Settles O42: a flag changes only when its fault is raised, and each fault has its reason. -/
theorem drawFrame : Obligations.DrawFrame := by
  intro i s t hd h
  obtain ⟨hhost, hseeded, hdraining⟩ := exec_draw_keeps hd h
  have hflag (k : FaultKind) (hk : ¬ drawFaultReason i s k) : flag k t = flag k s :=
    flag_of_not_raised h fun hr => hk (drawFaultReason_of_raises hd hr)
  refine ⟨hhost, hseeded, hflag .illegal not_false, fun hs => hflag .unseeded ?unseeded, ?nextint, ?cipher, hdraining,
    fun k => sameGenerator_of_faulted h⟩
  case unseeded => simp [drawFaultReason, hs]
  case nextint =>
    rintro lo hi rfl
    refine ⟨hflag .cpRange ?_, fun hle => hflag .range ?_⟩
    · simp [drawFaultReason]
    · simpa [drawFaultReason] using hle
  case cipher =>
    rintro c (rfl | rfl)
    all_goals
      refine ⟨hflag .range ?_, fun hc => hflag .cpRange ?_⟩
      · simp [drawFaultReason]
      · simpa [drawFaultReason] using hc

/-! ### The sequence of draws (rule R113) -/

section Stream
variable {s t u : State} {a : StateArray} {k l : Nat}

theorem nthDraw_zero (ha : s.array = some a) : nthDraw 0 s = some (drawnWord a s.cursor) := by
  simp only [nthDraw, extract_some ha]

theorem nthDraw_succ (ha : s.array = some a) (j : Nat) : nthDraw (j + 1) s = nthDraw j (afterDraw s a) := by
  simp only [nthDraw, extract_some ha]

theorem nthDraw_of_none (ha : s.array = none) (j : Nat) : nthDraw j s = none := by
  cases j <;> simp only [nthDraw, extract_none ha]

/-- The draws to come are a function of the array and the cursor alone. -/
theorem nthDraw_congr (harray : s.array = t.array) (hcursor : s.cursor = t.cursor) (j : Nat) : nthDraw j s = nthDraw j t := by
  induction j generalizing s t with
  | zero =>
    cases ha : s.array with
    | none => rw [nthDraw_of_none ha, nthDraw_of_none (harray ▸ ha)]
    | some a => rw [nthDraw_zero ha, nthDraw_zero (harray ▸ ha), hcursor]
  | succ j ih =>
    cases ha : s.array with
    | none => rw [nthDraw_of_none ha, nthDraw_of_none (harray ▸ ha)]
    | some a =>
      rw [nthDraw_succ ha, nthDraw_succ (harray ▸ ha)]
      exact ih (by simp [hcursor]) (by simp [hcursor])

/-- `t` is `s` after `k` draws, as far as `SEEDED`, `DRAWCNT` and the draws to come can tell. -/
structure AfterDraws (k : Nat) (s t : State) : Prop where
  seeded : t.seeded = s.seeded
  array : t.array.isSome = s.array.isSome
  drawcnt : t.drawcnt = s.drawcnt + BitVec.ofNat 32 k
  stream : ∀ j, nthDraw j t = nthDraw (k + j) s

theorem afterDraws_zero (h : SameGenerator t s) : AfterDraws 0 s t where
  seeded := h.seeded
  array := by rw [h.array]
  drawcnt := h.drawcnt.trans (BitVec.add_zero _).symm
  stream j := by rw [Nat.zero_add, nthDraw_congr h.array h.cursor]

theorem afterDraws_one (ha : s.array = some a) (r : Response) : AfterDraws 1 s (respond r (afterDraw s a)) where
  seeded := rfl
  array := by simp [ha]
  drawcnt := rfl
  stream j := by rw [Nat.add_comm, nthDraw_succ ha, nthDraw_congr (respond_array ..) (respond_cursor ..)]

theorem AfterDraws.trans (h : AfterDraws k s t) (h' : AfterDraws l t u) : AfterDraws (k + l) s u where
  seeded := h'.seeded.trans h.seeded
  array := h'.array.trans h.array
  drawcnt := by rw [h'.drawcnt, h.drawcnt, BitVec.add_assoc, BitVec.ofNat_add]
  stream j := by rw [h'.stream, h.stream, Nat.add_assoc]

end Stream

/-- Whether a command drew: it is a drawing command and was answered `OK`. -/
def drew (i : Instr) (r : Response) : Bool := draws i && !isFaultResponse r

/-- A command that is not `SEED` makes one draw if it drew, and none otherwise. -/
theorem exec_afterDraws {i : Instr} {s t : State} (hi : ∀ m, i ≠ .seed m) (h : exec i s = .next t) :
    ∃ r, t.responses = s.responses ++ [r] ∧ AfterDraws (if drew i r then 1 else 0) s t := by
  rcases exec_cases h with ⟨n, rfl, -⟩ | ⟨k, -, rfl⟩ | ⟨a, hd, -, ha, rfl⟩ | ⟨sr, v, rfl, -, rfl⟩
  · exact absurd rfl (hi n)
  · refine ⟨.fault k, raiseFault_responses k s, ?_⟩
    simpa [drew, isFaultResponse] using afterDraws_zero (sameGenerator_raiseFault k s)
  · refine ⟨_, rfl, ?_⟩
    simpa [drew, isFaultResponse, hd] using afterDraws_one ha _
  · exact ⟨.ok v, rfl, afterDraws_zero (sameGenerator_respond _ s)⟩

/-- After commands that are not `SEED`, the block has made as many draws as the responses tell. -/
theorem sendAll_afterDraws {is : List Instr} {s t : State} (his : ∀ i ∈ is, ∀ m, i ≠ .seed m) (h : sendAll is s = .next t) :
    ∃ rs, t.responses = s.responses ++ rs ∧ rs.length = is.length ∧
      AfterDraws ((is.zip rs).countP fun p => drew p.1 p.2) s t := by
  induction is generalizing s with
  | nil =>
    obtain rfl := Host.Outcome.next.inj h
    exact ⟨[], (List.append_nil _).symm, rfl, afterDraws_zero ⟨rfl, rfl, rfl, rfl, rfl⟩⟩
  | cons i is ih =>
    obtain ⟨hi, his⟩ := List.forall_mem_cons.mp his
    rw [sendAll] at h
    cases hexec : exec i s with
    | fault e => simp [hexec] at h
    | refused e => simp [hexec] at h
    | next s' =>
      rw [hexec] at h
      obtain ⟨r, hr, hfirst⟩ := exec_afterDraws hi hexec
      obtain ⟨rs, hrs, hlength, hrest⟩ := ih his h
      refine ⟨r :: rs, by simp [hrs, hr], by simp [hlength], ?_⟩
      rw [List.zip_cons_cons, List.countP_cons, Nat.add_comm]
      exact hfirst.trans hrest

@[simp] theorem afterSeed_drawcnt (n : Word) (s : State) : (afterSeed n s).drawcnt = 0#32 := rfl
@[simp] theorem afterSeed_responses (n : Word) (s : State) : (afterSeed n s).responses = s.responses := rfl

/-- `SEED n` starts the sequence `OUT(n, 1)`, `OUT(n, 2)`, ... from every state. -/
theorem out_succ (n : Word) (k : Nat) (s : State) (r : Response) :
    out n (k + 1) = nthDraw k (respond r (afterSeed n s)) :=
  nthDraw_congr (s := seededState n) (t := respond r (afterSeed n s)) rfl rfl k

theorem out_zero_one : out 0#32 1 = some 2479041101#32 := by decide +kernel

/-- Settles O33, by induction on the commands: `k` draws leave the draws to come from `OUT(n, k + 1)` on, and `DRAW` answers the next. -/
theorem drawsDependOnSeedAndCount : Obligations.DrawsDependOnSeedAndCount := by
  refine ⟨fun n is s t his h => ?_, out_zero_one⟩
  obtain ⟨rs, hrs, hlength, hdrawn⟩ := sendAll_afterDraws (s := respond (.ok 0#32) (afterSeed n s)) his h
  obtain ⟨a, ha⟩ := Option.isSome_iff_exists.mp hdrawn.array
  refine ⟨rs, _, drawnWord a t.cursor, _, by simpa using hrs, hlength, rfl, ?count, ?word,
    exec_nextint_full hdrawn.seeded ha, rfl⟩
  case count =>
    have hcount := congrArg BitVec.toNat hdrawn.drawcnt
    rw [respond_drawcnt, afterSeed_drawcnt, BitVec.zero_add, BitVec.toNat_ofNat] at hcount
    exact hcount
  case word => exact (out_succ n _ s (.ok 0#32)).trans ((hdrawn.stream 0).symm.trans (nthDraw_zero ha))

end Sys2Proof.Proofs
end

section
/-! PROOF. The cipher (43_cipher.md, rules R130 to R138, R164): one character as one draw, the wrap of code points, and whole messages in
closed form. `ENC` with `cpAdd` and `DEC` with `cpSub` share every argument but the wrap itself. -/

namespace Sys2Proof.Proofs

open Sys2Proof.Machine Sys2Proof.Laws

/-! ### Code-point arithmetic (rule R132) -/

section CodePoints
variable {c v : Word}

theorem cpAdd_codePoint (c v : Word) : (cpAdd c v).toNat < 0x110000 := by
  rw [cpAdd_toNat]
  exact Nat.mod_lt _ (by decide)

theorem cpSub_codePoint (c v : Word) : (cpSub c v).toNat < 0x110000 := by
  simp only [cpSub, Config.cpModulus, BitVec.toNat_ofNat]
  omega

/-- The remainder is not negative, so its 32 bits are those of the integer (rule R10). -/
theorem cpSub_eq_ofInt (c v : Word) : cpSub c v = BitVec.ofInt 32 (((c.toNat : Int) - (v.toNat : Int)) % 0x110000) := by
  rw [cpSub, ← BitVec.ofInt_natCast, Int.toNat_of_nonneg (Int.emod_nonneg _ (by decide))]
  rfl

theorem cpAdd_wraps (hc : c.toNat < 0x110000) (hv : v.toNat ≤ 4) :
    (c.toNat + v.toNat < 0x110000 → (cpAdd c v).toNat = c.toNat + v.toNat) ∧
    (0x110000 ≤ c.toNat + v.toNat → (cpAdd c v).toNat = c.toNat + v.toNat - 0x110000 ∧ 0x110000 - 4 ≤ c.toNat) := by
  rw [cpAdd_toNat]
  omega

theorem cpSub_wraps (hc : c.toNat < 0x110000) (hv : v.toNat ≤ 4) :
    (v.toNat ≤ c.toNat → (cpSub c v).toNat = c.toNat - v.toNat) ∧
    (c.toNat < v.toNat → (cpSub c v).toNat = c.toNat + 0x110000 - v.toNat ∧ c.toNat ≤ 3) := by
  rw [cpSub_toNat _ _ (by omega)]
  omega

end CodePoints

/-! ### One character (rules R130, R131, R133) -/

/-- `command` is a cipher command: of a code point it draws, and it answers the code point that `move` makes of it and the shift. -/
structure IsCipher (command : Word → Instr) (move : Word → Word → Word) : Prop where
  isDraw (c : Word) : draws (command c) = true
  good {c : Word} (hc : c.toNat < 0x110000) : operandsGood (command c) = true
  result (c z : Word) : drawResult (command c) z = move c (shiftOf z)
  codePoint (c v : Word) : (move c v).toNat < 0x110000

theorem isCipher_enc : IsCipher .enc cpAdd where
  isDraw _ := rfl
  good := decide_eq_true
  result _ _ := rfl
  codePoint := cpAdd_codePoint

theorem isCipher_dec : IsCipher .dec cpSub where
  isDraw _ := rfl
  good := decide_eq_true
  result _ _ := rfl
  codePoint := cpSub_codePoint

/-- A cipher command of a code point on a seeded block whose array holds values (rules R130, R131). -/
theorem exec_cipher {command : Word → Instr} {move : Word → Word → Word} (hcipher : IsCipher command move) {c : Word} {s : State}
    {a : StateArray} (hs : s.seeded = true) (ha : s.array = some a) (hc : c.toNat < 0x110000) :
    exec (command c) s = .next (respond (.ok (move c (shiftOf (drawnWord a s.cursor)))) (afterDraw s a)) := by
  rw [exec_good_draw (hcipher.isDraw c) (hcipher.good hc) hs ha, hcipher.result]

section Answers
variable {i : Instr} {s t : State}

/-- A drawing command answered `OK` found the block seeded, and its answer is made of the drawn word (rules R118, R130, R131). -/
theorem exec_draw_answered {v : Word} (hd : draws i = true) (h : exec i s = .next t) (hv : t.responses = s.responses ++ [.ok v]) :
    ∃ a, s.seeded = true ∧ s.array = some a ∧ drawResult i (drawnWord a s.cursor) = v ∧ t = respond (.ok v) (afterDraw s a) := by
  rcases exec_draw_cases hd h with ⟨k, -, rfl⟩ | ⟨a, hr, ha, rfl⟩
  · simp at hv
  · obtain rfl : drawResult i (drawnWord a s.cursor) = v := by simpa using hv
    exact ⟨a, seeded_of_draws hd hr, ha, rfl, rfl⟩

/-- Only a drawing command raises a fault other than `ILLEGAL` (rules R162 to R164). -/
theorem draws_of_raises {k : FaultKind} (h : raises i s = some k) (hk : k ≠ .illegal) : draws i = true := by
  cases i with
  | seed n => cases h
  | nextint lo hi | enc c | dec c => rfl
  | rdsr sr =>
    simp only [raises] at h
    split_ifs at h
    exact absurd (Option.some.inj h).symm hk

/-- A number at or above `CP_MODULUS` is no code point (rules R134, R164). -/
theorem raises_cpRange {c : Word} (hs : s.seeded = true) (hc : 0x110000 ≤ c.toNat) :
    raises (.enc c) s = some .cpRange ∧ raises (.dec c) s = some .cpRange := by
  have hno : isCodePoint c = false := decide_eq_false (Nat.not_lt.mpr hc)
  simp [raises, hs, hno]

end Answers

/-- Settles O34, by the equation of a cipher command. -/
theorem encCompletes : Obligations.EncCompletes :=
  fun _ _ _ => exec_cipher isCipher_enc

/-- Settles O35, by the equation of a cipher command; the difference is taken on integers. -/
theorem decCompletes : Obligations.DecCompletes := by
  intro c s a hs ha hc
  rw [exec_cipher isCipher_dec hs ha hc, cpSub_eq_ofInt]
  rfl

/-- Settles O36, by the wrap of the sum and of the difference at the shift of the drawn word. -/
theorem codePointsWrap : Obligations.CodePointsWrap := by
  intro c s t r hc hr
  refine ⟨fun h => ?enc, fun h => ?dec⟩
  all_goals
    obtain ⟨a, -, ha, rfl, -⟩ := exec_draw_answered rfl h hr
    obtain ⟨hlow, hhigh⟩ := shiftOf_bounds (drawnWord a s.cursor)
  case enc =>
    obtain ⟨hstays, hwraps⟩ := cpAdd_wraps hc hhigh
    exact ⟨a, _, ha, rfl, hlow, hhigh, hstays, hwraps, cpAdd_codePoint ..⟩
  case dec =>
    obtain ⟨hstays, hwraps⟩ := cpSub_wraps hc hhigh
    exact ⟨a, _, ha, rfl, hlow, hhigh, hstays, hwraps, cpSub_codePoint ..⟩

/-- Settles O37: the three commands make the same draw, and `NEXTINT 1, 4` answers its shift. -/
theorem shiftIsNextintOneFour : Obligations.ShiftIsNextintOneFour := by
  intro c s t v hc h hv
  obtain ⟨a, hs, ha, rfl, rfl⟩ := exec_draw_answered rfl h hv
  obtain ⟨hlow, hhigh⟩ := shiftOf_bounds (drawnWord a s.cursor)
  exact ⟨hlow, hhigh, ⟨_, exec_cipher isCipher_enc hs ha hc, rfl, ⟨rfl, rfl, rfl, rfl, rfl⟩⟩,
    ⟨_, exec_cipher isCipher_dec hs ha hc, rfl, ⟨rfl, rfl, rfl, rfl, rfl⟩⟩⟩

/-- A cipher command of a code point on a seeded block, where it answers at all, answers a code point (rule R134). -/
theorem codePoint_of_exec_cipher {command : Word → Instr} {move : Word → Word → Word} (hcipher : IsCipher command move) {c : Word}
    {s t : State} (hs : s.seeded = true) (hc : c.toNat < 0x110000) (h : exec (command c) s = .next t) :
    ∃ r, t.responses = s.responses ++ [.ok r] ∧ r.toNat < 0x110000 := by
  rcases exec_draw_cases (hcipher.isDraw c) h with ⟨k, hk, -⟩ | ⟨a, -, -, rfl⟩
  · rw [raises_eq_none (fun _ => hs) (hcipher.good hc)] at hk
    cases hk
  · refine ⟨_, rfl, ?_⟩
    rw [hcipher.result]
    exact hcipher.codePoint ..

/-- Settles O52: the fault of a number that is no code point, its only reason, and the answer to a code point. -/
theorem codePointFault : Obligations.CodePointFault := by
  refine ⟨fun c s hs hc => ?raised, fun i s t h hfault => ?reason, ?codePoint⟩
  case raised =>
    obtain ⟨henc, hdec⟩ := raises_cpRange hs hc
    exact ⟨exec_raises henc, exec_raises hdec⟩
  case reason =>
    obtain ⟨hr, -⟩ := exec_faulted h hfault
    obtain ⟨c, hi, hc⟩ := drawFaultReason_of_raises (draws_of_raises hr (by decide)) hr
    exact ⟨c, hi, Nat.not_lt.mp hc⟩
  case codePoint =>
    rintro c i s t (rfl | rfl) hs hc h
    · exact codePoint_of_exec_cipher isCipher_enc hs hc h
    · exact codePoint_of_exec_cipher isCipher_dec hs hc h

/-! ### The words of a key (rule R113) -/

theorem nthDraw_isSome {s : State} (h : s.array.isSome) (j : Nat) : (nthDraw j s).isSome := by
  obtain ⟨a, ha⟩ := Option.isSome_iff_exists.mp h
  induction j generalizing s a with
  | zero => simp [nthDraw_zero ha]
  | succ j ih =>
    rw [nthDraw_succ ha]
    exact ih rfl _ rfl

/-- The word that character `j` of a message draws: `OUT(key, j + 1)`, which is always a word (`out_eq_keyWord`). -/
def keyWord (key : Word) (j : Nat) : Word := (nthDraw j (seededState key)).get (nthDraw_isSome rfl j)

theorem out_eq_keyWord (key : Word) (j : Nat) : out key (j + 1) = some (keyWord key j) :=
  (Option.some_get _).symm

/-! ### A text moved character by character -/

/-- The text whose character `j` is moved by the shift of the word `w j`. -/
def movedText (move : Word → Word → Word) (w : Nat → Word) (text : List Word) : List Word :=
  text.mapIdx fun j c => move c (shiftOf (w j))

section MovedText
variable {move : Word → Word → Word} {w : Nat → Word} {text : List Word}

theorem movedText_cons (c : Word) :
    movedText move w (c :: text) = move c (shiftOf (w 0)) :: movedText move (fun j => w (j + 1)) text :=
  List.mapIdx_cons

theorem movedText_length : (movedText move w text).length = text.length :=
  List.length_mapIdx

theorem movedText_codePoints (hmove : ∀ c v, (move c v).toNat < 0x110000) : ∀ c ∈ movedText move w text, c.toNat < 0x110000 := by
  intro c hc
  obtain ⟨j, hj, rfl⟩ := List.mem_mapIdx.mp hc
  exact hmove ..

/-- The responses to a message, as the closed forms of rules R135 and R136 write them. -/
theorem movedText_responses :
    (movedText move w text).map Response.ok = text.zipIdx.map fun p => .ok (move p.1 (shiftOf (w p.2))) := by
  rw [movedText, List.mapIdx_eq_zipIdx_map, List.map_map]
  rfl

/-- Moving a text back by the same shifts (rule R137). -/
theorem movedText_movedText {back : Word → Word → Word}
    (hback : ∀ c v : Word, c.toNat < 0x110000 → v.toNat < 0x110000 → back (move c v) v = c)
    (htext : ∀ c ∈ text, c.toNat < 0x110000) : movedText back w (movedText move w text) = text := by
  induction text generalizing w with
  | nil => rfl
  | cons c text ih =>
    obtain ⟨hc, htext⟩ := List.forall_mem_cons.mp htext
    obtain ⟨-, hshift⟩ := shiftOf_bounds (w 0)
    rw [movedText_cons, movedText_cons, hback c _ hc (by omega), ih htext]

end MovedText

/-! ### Messages (rules R135 to R138) -/

section Message
variable {command : Word → Instr} {move : Word → Word → Word} {text : List Word} {s : State}

/-- The characters of a message draw the words to come one after the other. -/
theorem sendAll_characters (hcipher : IsCipher command move) {w : Nat → Word} (hs : s.seeded = true)
    (hw : ∀ j, nthDraw j s = some (w j)) (htext : ∀ c ∈ text, c.toNat < 0x110000) :
    ∃ t, sendAll (text.map command) s = .next t ∧ t.responses = s.responses ++ (movedText move w text).map .ok := by
  induction text generalizing s w with
  | nil => exact ⟨s, rfl, (List.append_nil _).symm⟩
  | cons c text ih =>
    obtain ⟨hc, htext⟩ := List.forall_mem_cons.mp htext
    cases ha : s.array with
    | none =>
      have hnone : none = some (w 0) := (nthDraw_of_none ha 0).symm.trans (hw 0)
      cases hnone
    | some a =>
      have hfirst : drawnWord a s.cursor = w 0 := Option.some.inj ((nthDraw_zero ha).symm.trans (hw 0))
      have hexec := exec_cipher hcipher hs ha hc
      have hrest (r : Response) (j : Nat) : nthDraw j (respond r (afterDraw s a)) = some (w (j + 1)) := by
        rw [← hw, nthDraw_succ ha, nthDraw_congr (respond_array ..) (respond_cursor ..)]
      obtain ⟨t, hsend, hresponses⟩ := ih (s := respond _ (afterDraw s a)) hs (hrest _) htext
      refine ⟨t, ?_, ?_⟩
      · rw [List.map_cons, sendAll, hexec]
        exact hsend
      · rw [hresponses, movedText_cons, hfirst]
        simp

/-- A whole message, from every state: `SEED` starts the words of the key, and each character draws the next. -/
theorem sendAll_message (hcipher : IsCipher command move) (key : Word) (s : State) (htext : ∀ c ∈ text, c.toNat < 0x110000) :
    ∃ t, sendAll (.seed key :: text.map command) s = .next t ∧
      t.responses = s.responses ++ .ok 0#32 :: (movedText move (keyWord key) text).map .ok := by
  have hw (j : Nat) : nthDraw j (respond (.ok 0#32) (afterSeed key s)) = some (keyWord key j) :=
    (out_succ ..).symm.trans (out_eq_keyWord key j)
  obtain ⟨t, hsend, hresponses⟩ := sendAll_characters hcipher rfl hw htext
  exact ⟨t, hsend, by simpa using hresponses⟩

end Message

/-- Settles O38: the message draws the words of the key in order, and `cpAdd` is the sum of the closed form. -/
theorem encryptClosedForm : Obligations.EncryptClosedForm := by
  intro key text s htext
  obtain ⟨t, hsend, hresponses⟩ := sendAll_message isCipher_enc key s htext
  rw [movedText_responses] at hresponses
  exact ⟨t, keyWord key, fun j _ => out_eq_keyWord key j, hsend, hresponses⟩

/-- Settles O39, as O38; the difference is taken on integers. -/
theorem decryptClosedForm : Obligations.DecryptClosedForm := by
  intro key text s htext
  obtain ⟨t, hsend, hresponses⟩ := sendAll_message isCipher_dec key s htext
  simp only [movedText_responses, cpSub_eq_ofInt] at hresponses
  exact ⟨t, keyWord key, fun j _ => out_eq_keyWord key j, hsend, hresponses⟩

/-- One message after another with the same key, the second moving back what the first moved. -/
theorem sendAll_roundTrip {command command' : Word → Instr} {move back : Word → Word → Word} (hmove : IsCipher command move)
    (hback : IsCipher command' back)
    (hinverse : ∀ c v : Word, c.toNat < 0x110000 → v.toNat < 0x110000 → back (move c v) v = c) (key : Word) {text : List Word}
    (s : State) (htext : ∀ c ∈ text, c.toNat < 0x110000) :
    ∃ (t u : State) (mid : List Word), sendAll (.seed key :: text.map command) s = .next t ∧
      t.responses = s.responses ++ .ok 0#32 :: mid.map .ok ∧
      sendAll (.seed key :: mid.map command') t = .next u ∧ u.responses = t.responses ++ .ok 0#32 :: text.map .ok := by
  obtain ⟨t, hsend, hresponses⟩ := sendAll_message hmove key s htext
  obtain ⟨u, hsend', hresponses'⟩ := sendAll_message hback key t (movedText_codePoints hmove.codePoint)
  rw [movedText_movedText hinverse htext] at hresponses'
  exact ⟨t, u, _, hsend, hresponses, hsend', hresponses'⟩

/-- Settles O40: with one key both messages shift by the same words, and the sum and the difference undo each other. -/
theorem cipherRoundTrip : Obligations.CipherRoundTrip := fun key _ s htext =>
  ⟨sendAll_roundTrip isCipher_enc isCipher_dec cpSub_cpAdd key s htext,
    sendAll_roundTrip isCipher_dec isCipher_enc cpAdd_cpSub key s htext⟩

/-- The answer to a message is as long as its text, and no part of it is a fault. -/
theorem message_length {command : Word → Instr} {move : Word → Word → Word} (hcipher : IsCipher command move) (key : Word)
    {text : List Word} (s : State) (htext : ∀ c ∈ text, c.toNat < 0x110000) :
    ∃ t out, sendAll (.seed key :: text.map command) s = .next t ∧ t.responses = s.responses ++ .ok 0#32 :: out ∧
      out.length = text.length ∧ ∀ r ∈ out, isFaultResponse r = false := by
  obtain ⟨t, hsend, hresponses⟩ := sendAll_message hcipher key s htext
  refine ⟨t, _, hsend, hresponses, ?length, ?answers⟩
  case length => rw [List.length_map, movedText_length]
  case answers =>
    intro r hr
    obtain ⟨v, -, rfl⟩ := List.mem_map.mp hr
    rfl

/-- Settles O41, by the length of a message; of the empty text only `SEED` is left. -/
theorem messageLength : Obligations.MessageLength :=
  ⟨fun key _ s htext => ⟨message_length isCipher_enc key s htext, message_length isCipher_dec key s htext⟩,
    fun key s => ⟨rfl, rfl, respond (.ok 0#32) (afterSeed key s), rfl, rfl, rfl, rfl, rfl⟩⟩

end Sys2Proof.Proofs
end

section
/-! PROOF. The system command and the counters (44_system.md, rules R150 to R152): what `RDSR` answers and leaves unchanged, and the
relation of the cursor and the two counters, which every step keeps while `DRAWCNT` does not wrap. -/

namespace Sys2Proof.Proofs

open Sys2Proof.Machine Sys2Proof.Laws

/-! ### `RDSR` (rules R55, R150) -/

/-- Six flags at the positions of rule R31, as a sum of powers of two: no two of them share a bit. -/
theorem flagBits_eq_ofNat : ∀ b0 b1 b4 b5 b6 b7 : Bool,
    flagBit b0 0 ||| flagBit b1 1 ||| flagBit b4 4 ||| flagBit b5 5 ||| flagBit b6 6 ||| flagBit b7 7 =
      BitVec.ofNat 32 (b0.toNat + b1.toNat * 2 + b4.toNat * 16 + b5.toNat * 32 + b6.toNat * 64 + b7.toNat * 128) := by
  decide

theorem statusWord_eq_ofNat (s : State) :
    statusWord s = BitVec.ofNat 32 (s.seeded.toNat + (decide (s.cursor.val = 0)).toNat * 2 + s.fIllegal.toNat * 16 +
      s.fUnseeded.toNat * 32 + s.fRange.toNat * 64 + s.fCp.toNat * 128) := by
  rw [← primed_eq_decide_val]
  exact flagBits_eq_ofNat ..

/-- The register that an index 0 .. 3 names (rules R31, R56). -/
theorem statusRegister_of_lt {sr : Word} (s : State) (hsr : sr.toNat < 4) :
    statusRegister sr s = some (if sr.toNat = 0 then statusWord s else if sr.toNat = 1 then cursorWord s
      else if sr.toNat = 2 then s.drawcnt else s.regencnt) := by
  obtain h | h | h | h : sr.toNat = 0 ∨ sr.toNat = 1 ∨ sr.toNat = 2 ∨ sr.toNat = 3 := by omega
  all_goals simp [statusRegister, h]

/-- A command leaves the host's moves as they are (rules R6, R24). -/
theorem exec_keeps_host {i : Instr} {s t : State} (h : exec i s = .next t) : t.host = s.host := by
  have hframe : exec i s = outcomeWithHost s.host (exec i s) := exec_withHost s.host s i
  rw [h] at hframe
  have ht : t = { t with host := s.host } := Host.Outcome.next.inj hframe
  rw [ht]

/-- `RDSR` sets no flag but that of `ILLEGAL`, the one fault a command that does not draw can raise. -/
theorem flag_of_rdsr {sr : Word} {s t : State} {k : FaultKind} (h : exec (.rdsr sr) s = .next t) (hk : k ≠ .illegal) :
    flag k t = flag k s :=
  flag_of_not_raised h fun hr => Bool.false_ne_true (draws_of_raises hr hk)

/-- Settles O43, by the register that the index names and the value of `STATUS` as a sum. -/
theorem rdsrCompletes : Obligations.RdsrCompletes := by
  intro s sr hsr
  rw [← statusWord_eq_ofNat]
  exact exec_rdsr_some (statusRegister_of_lt s hsr)

/-- Settles O45: a flag changes only when its fault is raised, and an index that names a register raises none. -/
theorem rdsrFrame : Obligations.RdsrFrame := by
  intro sr s t h
  refine ⟨sameGenerator_of_rdsr h, exec_keeps_host h, flag_of_rdsr (k := .unseeded) h nofun, flag_of_rdsr (k := .range) h nofun,
    flag_of_rdsr (k := .cpRange) h nofun, fun hsr => flag_of_not_raised (k := .illegal) h ?_⟩
  have hnone : raises (.rdsr sr) s = none := raises_eq_none nofun (decide_eq_true hsr)
  simp [hnone]

/-! ### The cursor and the counters (rules R30, R152) -/

section Counters
variable {s t : State}

theorem countersAgree_of_sameGenerator (h : SameGenerator t s) (hs : CountersAgree s) : CountersAgree t := by
  rw [CountersAgree, h.cursor, h.drawcnt, h.regencnt]
  exact hs

theorem countersAgree_assertReset (s : State) : CountersAgree (assertReset s) := ⟨rfl, rfl⟩

theorem countersAgree_afterSeed (n : Word) (s : State) : CountersAgree (respond (.ok 0#32) (afterSeed n s)) := ⟨rfl, rfl⟩

theorem afterDraw_drawcnt_toNat (a : StateArray) (hwrap : s.drawcnt.toNat + 1 < 2 ^ 32) :
    (afterDraw s a).drawcnt.toNat = s.drawcnt.toNat + 1 :=
  BitVec.toNat_add_of_lt hwrap

/-- A draw regenerates when `DRAWCNT` is a multiple of 624, which is when the quotient of rule R152 grows. -/
theorem countersAgree_afterDraw (a : StateArray) (r : Response) (hs : CountersAgree s) (hwrap : s.drawcnt.toNat + 1 < 2 ^ 32) :
    CountersAgree (respond r (afterDraw s a)) := by
  obtain ⟨hcursor, hregencnt⟩ := hs
  have hcursor' : (afterDraw s a).cursor.val = (s.cursor.val + 1) % 624 := afterDraw_cursor_val s a
  have hdrawcnt' : (afterDraw s a).drawcnt.toNat = s.drawcnt.toNat + 1 := afterDraw_drawcnt_toNat a hwrap
  constructor
  · rw [respond_cursor, respond_drawcnt]
    omega
  · rw [respond_regencnt, respond_drawcnt, afterDraw_regencnt, regencntAfterDraw_toNat, hdrawcnt',
      if_neg (Nat.succ_ne_zero _), Nat.add_sub_cancel]
    split_ifs at hregencnt ⊢ <;> omega

theorem exec_keeps_countersAgree {i : Instr} (hs : CountersAgree s) (hwrap : s.drawcnt.toNat + 1 < 2 ^ 32)
    (h : exec i s = .next t) : CountersAgree t := by
  rcases exec_cases h with ⟨n, -, rfl⟩ | ⟨k, -, rfl⟩ | ⟨a, -, -, -, rfl⟩ | ⟨sr, v, -, -, rfl⟩
  · exact countersAgree_afterSeed n s
  · exact countersAgree_of_sameGenerator (sameGenerator_raiseFault k s) hs
  · exact countersAgree_afterDraw a _ hs hwrap
  · exact countersAgree_of_sameGenerator (sameGenerator_respond (.ok v) s) hs

/-- Good draws on a seeded block whose array holds values are all answered, and `DRAWCNT` counts them. -/
theorem sendAll_good_draws {is : List Instr} (his : ∀ i ∈ is, draws i = true ∧ operandsGood i = true) (hseeded : s.seeded = true)
    (harray : s.array.isSome) (hs : CountersAgree s) (hwrap : s.drawcnt.toNat + is.length < 2 ^ 32) :
    ∃ t, sendAll is s = .next t ∧ t.drawcnt.toNat = s.drawcnt.toNat + is.length ∧ CountersAgree t := by
  induction is generalizing s with
  | nil => exact ⟨s, rfl, rfl, hs⟩
  | cons i is ih =>
    obtain ⟨⟨hdraws, hgood⟩, his⟩ := List.forall_mem_cons.mp his
    obtain ⟨a, ha⟩ := Option.isSome_iff_exists.mp harray
    rw [List.length_cons] at hwrap ⊢
    have hone : s.drawcnt.toNat + 1 < 2 ^ 32 := by omega
    have hdrawcnt := afterDraw_drawcnt_toNat a hone
    have hexec := exec_good_draw hdraws hgood hseeded ha
    obtain ⟨t, hsend, hcount, ht⟩ := ih (s := respond (.ok (drawResult i (drawnWord a s.cursor))) (afterDraw s a)) his hseeded rfl
      (countersAgree_afterDraw a _ hs hone) (by rw [respond_drawcnt, hdrawcnt]; omega)
    refine ⟨t, ?_, ?_, ht⟩
    · rw [sendAll, hexec]
      exact hsend
    · rw [hcount, respond_drawcnt, hdrawcnt]
      omega

end Counters

/-- Settles O16, along the four things a step can do; a `DRAWCNT` that is not all ones does not wrap. -/
theorem stepKeepsCountersAgree : Obligations.StepKeepsCountersAgree := by
  intro s t hs hne h
  have hmax : s.drawcnt.toNat ≠ 2 ^ 32 - 1 := fun heq => hne (BitVec.eq_of_toNat_eq heq)
  have hwrap : s.drawcnt.toNat + 1 < 2 ^ 32 := by omega
  rcases step_cases h with ⟨-, rfl⟩ | ⟨rest, -, rfl⟩ | ⟨w, rest, e, hhost, hdecode, -⟩ | ⟨w, rest, i, -, -, hexec⟩
  · exact hs
  · exact countersAgree_assertReset _
  · exact countersAgree_of_sameGenerator (sameGenerator_of_illegal_word hhost hdecode h) hs
  · exact exec_keeps_countersAgree (s := { s with host := rest }) hs hwrap hexec

/-- Settles O47: `SEED` sets `DRAWCNT` to 0 and the relation of rule R152 holds, and the draws after it count `DRAWCNT` up and keep the
relation, which is then the statement. -/
theorem countersAfterDraws : Obligations.CountersAfterDraws := by
  intro n is s his hlength
  have hwrap : (respond (.ok 0#32) (afterSeed n s)).drawcnt.toNat + is.length < 2 ^ 32 := by simpa using hlength
  obtain ⟨t, hsend, hcount, hcursor, hregencnt⟩ := sendAll_good_draws his rfl rfl (countersAgree_afterSeed n s) hwrap
  have hdrawcnt : t.drawcnt.toNat = is.length := by simpa using hcount
  rw [hdrawcnt] at hcursor hregencnt
  exact ⟨t, hsend, hdrawcnt, hcursor, hregencnt⟩

end Sys2Proof.Proofs
end

section
/-! PROOF. The faults (60_exceptions.md, rules R160 to R170): which fault a command raises and what it changes, how the block goes on after
a fault, and why a good sequence raises none. -/

namespace Sys2Proof.Proofs

open Sys2Proof.Machine Sys2Proof.Laws

/-! ### The flags as one family (rule R28) -/

section Flags
variable (k : FaultKind) (s : State)

@[simp] theorem flag_withHost (ms : List HostMove) : flag k { s with host := ms } = flag k s := by cases k <;> rfl
@[simp] theorem flag_respond (r : Response) : flag k (respond r s) = flag k s := by cases k <;> rfl
@[simp] theorem flag_afterSeed (n : Word) : flag k (afterSeed n s) = flag k s := by cases k <;> rfl
@[simp] theorem flag_afterDraw (a : StateArray) : flag k (afterDraw s a) = flag k s := by cases k <;> rfl

end Flags

theorem sameFlags_of_flag_eq {s t : State} (h : ∀ k, flag k t = flag k s) : SameFlags t s :=
  ⟨h .illegal, h .unseeded, h .range, h .cpRange⟩

theorem sameFlags_trans {s t u : State} (h : SameFlags u t) (h' : SameFlags t s) : SameFlags u s :=
  ⟨h.illegal.trans h'.illegal, h.unseeded.trans h'.unseeded, h.range.trans h'.range, h.cpRange.trans h'.cpRange⟩

/-! ### Which fault a command raises (rules R161 to R166) -/

section Raises
variable {i : Instr} {s t : State}

/-- A drawing command on an unseeded block, whatever its operands (rules R162, R166). -/
theorem raises_unseeded (hd : draws i = true) (hs : s.seeded = false) : raises i s = some .unseeded := by
  cases i with
  | seed n | rdsr sr => cases hd
  | nextint lo hi | enc c | dec c => exact if_pos hs

/-- `NEXTINT` with `A > B` on a seeded block (rule R163). -/
theorem raises_range {lo hi : Word} (hs : s.seeded = true) (hlt : hi.toNat < lo.toNat) :
    raises (.nextint lo hi) s = some .range := by
  simp [raises, hs, hlt]

/-- A fault other than `ILLEGAL` has the reason that rules R162 to R164 give it. -/
theorem drawFaultReason_of_faulted {k : FaultKind} (h : exec i s = .next t) (hk : t.responses = s.responses ++ [.fault k])
    (hne : k ≠ .illegal) : draws i = true ∧ drawFaultReason i s k := by
  obtain ⟨hr, -⟩ := exec_faulted h hk
  have hd : draws i = true := draws_of_raises hr hne
  exact ⟨hd, drawFaultReason_of_raises hd hr⟩

/-- A command that raises no fault is answered `OK` (rule R166). -/
theorem exec_answers_ok (h : exec i s = .next t) (hr : raises i s = none) : ∃ v, t.responses = s.responses ++ [.ok v] := by
  rcases exec_cases h with ⟨n, -, rfl⟩ | ⟨k, hk, -⟩ | ⟨a, -, -, -, rfl⟩ | ⟨sr, v, -, -, rfl⟩
  · exact ⟨_, rfl⟩
  · rw [hr] at hk
    cases hk
  · exact ⟨_, rfl⟩
  · exact ⟨_, rfl⟩

end Raises

/-! ### The step that faults (rule R165) -/

section Step
variable {s t : State} {w : CommandWord} {rest : List HostMove} {k : FaultKind}

/-- A command word that is answered with a fault, illegal or not, raised it, and did nothing else. -/
theorem step_faulted (hhost : s.host = .command w :: rest) (h : step s = .next t)
    (hk : t.responses = s.responses ++ [.fault k]) : t = raiseFault k { s with host := rest } := by
  cases hdecode : decode w with
  | error e =>
    rw [step_of_illegal hhost hdecode] at h
    obtain rfl := Host.Outcome.next.inj h
    obtain rfl : FaultKind.illegal = k := by simpa using hk
    rfl
  | ok i =>
    rw [step_of_legal hhost hdecode] at h
    obtain ⟨-, ht⟩ := exec_faulted h hk
    exact ht

theorem step_raises {i : Instr} (hhost : s.host = .command w :: rest) (hdecode : decode w = .ok i) (hr : raises i s = some k)
    (h : step s = .next t) : t.responses = s.responses ++ [.fault k] := by
  rw [step_of_legal hhost hdecode, exec_raises ((raises_withHost rest s i).trans hr)] at h
  obtain rfl := Host.Outcome.next.inj h
  exact raiseFault_responses k { s with host := rest }

theorem flag_of_step_faulted (hhost : s.host = .command w :: rest) (h : step s = .next t)
    (hk : t.responses = s.responses ++ [.fault k]) (j : FaultKind) : flag j t = (flag j s || decide (j = k)) := by
  rw [step_faulted hhost h hk, flag_raiseFault, flag_withHost, Bool.or_comm]

end Step

/-- Settles O48: the step that faults is the raising of its fault. -/
theorem faultChangesOnlyItsFlag : Obligations.FaultChangesOnlyItsFlag := by
  refine ⟨fun s t w rest k hhost h hk => ?_, fun k => rfl⟩
  have hflag := flag_of_step_faulted hhost h hk
  obtain rfl := step_faulted hhost h hk
  exact ⟨by simp [hflag], fun j hj => by simp [hflag, hj], { sameGenerator_raiseFault k { s with host := rest } with },
    raiseFault_host ..⟩

/-- Settles O49, condition by condition in the order of rule R166. -/
theorem faultPriority : Obligations.FaultPriority := by
  intro s t w rest hhost h
  refine ⟨?illegal, fun i hdecode hd hs => step_raises hhost hdecode (raises_unseeded hd hs) h,
    fun lo hi hdecode hs hlt => step_raises hhost hdecode (raises_range hs hlt) h, ?cpRange, ?good,
    fun k hk => flag_of_step_faulted hhost h hk⟩
  case illegal =>
    rintro ⟨e, hdecode⟩
    rw [step_of_illegal hhost hdecode] at h
    obtain rfl := Host.Outcome.next.inj h
    exact raiseFault_responses .illegal { s with host := rest }
  case cpRange =>
    intro c hdecode hs hc
    obtain ⟨henc, hdec⟩ := raises_cpRange hs hc
    rcases hdecode with hdecode | hdecode
    · exact step_raises hhost hdecode henc h
    · exact step_raises hhost hdecode hdec h
  case good =>
    intro i hdecode hs hgood
    rw [step_of_legal hhost hdecode] at h
    exact exec_answers_ok (s := { s with host := rest }) h (raises_eq_none hs hgood)

/-- Settles O50: the fault of a drawing command on an unseeded block, and its only reason. -/
theorem unseededFault : Obligations.UnseededFault :=
  ⟨fun _ _ hd hs => exec_raises (raises_unseeded hd hs), fun _ _ _ h hk => drawFaultReason_of_faulted h hk nofun⟩

/-- Settles O51: the fault of an empty range on a seeded block, and its only reason. -/
theorem rangeFault : Obligations.RangeFault :=
  ⟨fun _ _ _ hs hlt => exec_raises (raises_range hs hlt), fun _ _ _ h hk => (drawFaultReason_of_faulted h hk nofun).2⟩

/-! ### The block after a fault (rule R168)

Two blocks whose states differ by one sticky flag, and by the responses already given, run the same command side by side. -/

/-- `t` is `s` with the flag of `k` set, whatever the responses already given. -/
structure DiffersByFlag (k : FaultKind) (t s : State) : Prop where
  generator : SameGenerator t s
  host : t.host = s.host
  flags : ∀ f, flag f t = (flag f s || decide (f = k))

section DiffersByFlag
variable {k : FaultKind} {s t : State}

theorem differsByFlag_raiseFault (k : FaultKind) (s : State) : DiffersByFlag k (raiseFault k s) s where
  generator := sameGenerator_raiseFault k s
  host := raiseFault_host k s
  flags f := by rw [flag_raiseFault, Bool.or_comm]

theorem DiffersByFlag.withHost (h : DiffersByFlag k t s) (ms : List HostMove) :
    DiffersByFlag k { t with host := ms } { s with host := ms } where
  generator := { h.generator with }
  host := rfl
  flags f := by simpa using h.flags f

theorem DiffersByFlag.respond (h : DiffersByFlag k t s) (q r : Response) : DiffersByFlag k (respond q t) (respond r s) where
  generator := { h.generator with }
  host := h.host
  flags f := by simpa using h.flags f

theorem DiffersByFlag.raiseFault (h : DiffersByFlag k t s) (j : FaultKind) : DiffersByFlag k (raiseFault j t) (raiseFault j s) where
  generator := by
    constructor <;> simp [h.generator.array, h.generator.cursor, h.generator.seeded, h.generator.drawcnt, h.generator.regencnt]
  host := by simp [h.host]
  flags f := by rw [flag_raiseFault, flag_raiseFault, h.flags, Bool.or_assoc]

theorem DiffersByFlag.afterSeed (h : DiffersByFlag k t s) (n : Word) : DiffersByFlag k (afterSeed n t) (afterSeed n s) where
  generator := ⟨rfl, rfl, rfl, rfl, rfl⟩
  host := h.host
  flags f := by simpa using h.flags f

theorem DiffersByFlag.afterDraw (h : DiffersByFlag k t s) (a : StateArray) : DiffersByFlag k (afterDraw t a) (afterDraw s a) where
  generator := by
    constructor <;> simp [regencntAfterDraw, h.generator.cursor, h.generator.seeded, h.generator.drawcnt, h.generator.regencnt]
  host := h.host
  flags f := by simpa using h.flags f

theorem statusRegister_of_ge {sr : Word} (s : State) (hsr : 4 ≤ sr.toNat) : statusRegister sr s = none := by
  unfold statusRegister
  split
  pick_goal 5
  · rfl
  all_goals omega

/-- Every register but `STATUS` is read off the generator (rule R31). -/
theorem statusRegister_congr {sr : Word} (h : SameGenerator t s) (hsr : sr ≠ 0#32) : statusRegister sr t = statusRegister sr s := by
  obtain hlt | hge := Nat.lt_or_ge sr.toNat 4
  · have hne : sr.toNat ≠ 0 := fun h0 => hsr (BitVec.eq_of_toNat_eq h0)
    simp [statusRegister_of_lt _ hlt, hne, cursorWord, h.cursor, h.drawcnt, h.regencnt]
  · rw [statusRegister_of_ge t hge, statusRegister_of_ge s hge]

theorem statusRegister_status (s : State) : statusRegister 0#32 s = some (statusWord s) := rfl

/-- Which fault a command raises is not read off the flags (rules R161 to R164). -/
theorem raises_congr (h : SameGenerator t s) (i : Instr) : raises i t = raises i s := by
  cases i with
  | seed n => rfl
  | nextint lo hi | enc c | dec c => simp only [raises, h.seeded]
  | rdsr sr =>
    obtain rfl | hsr := eq_or_ne sr 0#32
    · simp [raises, statusRegister_status]
    · simp only [raises, statusRegister_congr h hsr]

/-- What a command answers in the state `t` where its answer is `r` in a state that differs from `t` by a flag: only `RDSR STATUS`
reads the flags. -/
def answerWithFlagsOf (t : State) (i : Instr) (r : Response) : Response :=
  if i = .rdsr 0#32 then .ok (statusWord t) else r

theorem answerWithFlagsOf_status (t : State) (r : Response) : answerWithFlagsOf t (.rdsr 0#32) r = .ok (statusWord t) := rfl

theorem answerWithFlagsOf_of_ne {i : Instr} (t : State) (r : Response) (hi : i ≠ .rdsr 0#32) : answerWithFlagsOf t i r = r :=
  if_neg hi

/-- A command runs side by side in the two states: one response in each, and the flag stays their only difference. -/
theorem exec_differsByFlag {i : Instr} {u : State} (hdiff : DiffersByFlag k t s) (h : exec i s = .next u) :
    ∃ v r, exec i t = .next v ∧ u.responses = s.responses ++ [r] ∧ v.responses = t.responses ++ [answerWithFlagsOf t i r] ∧
      DiffersByFlag k v u := by
  rcases exec_cases h with ⟨n, rfl, rfl⟩ | ⟨j, hj, rfl⟩ | ⟨a, hd, hr, ha, rfl⟩ | ⟨sr, v, rfl, hv, rfl⟩
  · exact ⟨_, _, exec_seed n t, rfl, rfl, (hdiff.afterSeed n).respond _ _⟩
  · have hne : i ≠ .rdsr 0#32 := by
      rintro rfl
      cases hj
    refine ⟨_, _, exec_raises ((raises_congr hdiff.generator i).trans hj), raiseFault_responses j s, ?_, hdiff.raiseFault j⟩
    rw [answerWithFlagsOf_of_ne t _ hne, raiseFault_responses]
  · have hne : i ≠ .rdsr 0#32 := by
      rintro rfl
      cases hd
    have hexec := (exec_draws hd ((raises_congr hdiff.generator i).trans hr)).trans
      (drawThenRespond_some (hdiff.generator.array.trans ha) _)
    refine ⟨_, _, hexec, rfl, ?_, (hdiff.afterDraw a).respond _ _⟩
    rw [answerWithFlagsOf_of_ne t _ hne, hdiff.generator.cursor]
    rfl
  · obtain rfl | hsr := eq_or_ne sr 0#32
    · exact ⟨_, _, exec_rdsr_some (statusRegister_status t), rfl, rfl, hdiff.respond _ _⟩
    · have hne : Instr.rdsr sr ≠ .rdsr 0#32 := by simpa using hsr
      refine ⟨_, _, exec_rdsr_some ((statusRegister_congr hdiff.generator hsr).trans hv), rfl, ?_, hdiff.respond _ _⟩
      rw [answerWithFlagsOf_of_ne t _ hne]
      rfl

end DiffersByFlag

/-- Settles O53: the fault leaves a state that differs by its flag, and the next word, illegal or a command, is run side by side. -/
theorem faultedCommandLeavesNoTrace : Obligations.FaultedCommandLeavesNoTrace := by
  intro s t u w w' rest k hhost hstep hk hu
  have ht : t = raiseFault k { s with host := .command w' :: rest } := step_faulted hhost hstep hk
  have hthost : t.host = .command w' :: rest := by rw [ht, raiseFault_host]
  have hdiff : DiffersByFlag k { t with host := rest } { s with host := rest } := by
    rw [ht]
    exact (differsByFlag_raiseFault k { s with host := .command w' :: rest }).withHost rest
  cases hdecode : decode w' with
  | error e =>
    rw [step_of_illegal (s := { s with host := .command w' :: rest }) rfl hdecode] at hu
    obtain rfl := Host.Outcome.next.inj hu
    obtain ⟨hgenerator, hhost', hflags⟩ := hdiff.raiseFault .illegal
    exact ⟨_, .fault .illegal, .fault .illegal, step_of_illegal hthost hdecode, by simp, by simp [hk], fun _ => rfl, nofun,
      hgenerator, hhost', hflags⟩
  | ok i =>
    rw [step_of_legal (s := { s with host := .command w' :: rest }) rfl hdecode] at hu
    obtain ⟨v, r, hv, hur, hvr, hgenerator, hhost', hflags⟩ := exec_differsByFlag hdiff hu
    refine ⟨v, r, answerWithFlagsOf t i r, (step_of_legal hthost hdecode).trans hv, hur, ?responses, fun hi => ?unread,
      fun hi => ?status, hgenerator, hhost', hflags⟩
    case responses =>
      rw [hvr, hk, List.append_assoc]
      rfl
    case unread => exact answerWithFlagsOf_of_ne t r fun h => hi (congrArg Except.ok h)
    case status =>
      obtain rfl := Except.ok.inj hi
      exact answerWithFlagsOf_status t r

/-! ### Good sequences (rule R170) -/

section Good
variable {i : Instr} {s t : State}

/-- In a state with the invariant every command completes (rules R22, R190). -/
theorem exec_completes (hs : StateInv s) (i : Instr) : ∃ t, exec i s = .next t := by
  cases hr : raises i s with
  | some k => exact ⟨_, exec_raises hr⟩
  | none =>
    cases hd : draws i with
    | true =>
      have harray : s.array.isSome = true := hs.array_iff.trans (seeded_of_draws hd hr)
      obtain ⟨a, ha⟩ := Option.isSome_iff_exists.mp harray
      exact ⟨_, (exec_draws hd hr).trans (drawThenRespond_some ha _)⟩
    | false =>
      cases i with
      | seed n => exact ⟨_, exec_seed n s⟩
      | nextint lo hi | enc c | dec c => cases hd
      | rdsr sr =>
        obtain ⟨v, hv⟩ : ∃ v, statusRegister sr s = some v := by simpa [raises, Option.isSome_iff_exists] using hr
        exact ⟨_, exec_rdsr_some hv⟩

/-- The first command of a good sequence raises no fault, and the rest is good for the `SEEDED` that it leaves. -/
theorem sequenceGood_cons {is : List Instr} (hgood : sequenceGood s.seeded (i :: is) = true) (h : exec i s = .next t) :
    raises i s = none ∧ sequenceGood t.seeded is = true := by
  cases i with
  | seed n =>
    obtain rfl := Host.Outcome.next.inj h
    exact ⟨rfl, hgood⟩
  | nextint lo hi | enc c | dec c =>
    simp only [sequenceGood, draws, Bool.not_true, Bool.or_false, Bool.and_eq_true] at hgood
    obtain ⟨⟨hoperands, hs⟩, his⟩ := hgood
    obtain ⟨-, hseeded, -⟩ := exec_draw_keeps rfl h
    rw [hseeded]
    exact ⟨raises_eq_none (fun _ => hs) hoperands, his⟩
  | rdsr sr =>
    simp only [sequenceGood, draws, Bool.not_false, Bool.or_true, Bool.and_true, Bool.and_eq_true] at hgood
    obtain ⟨hoperands, his⟩ := hgood
    rw [(sameGenerator_of_rdsr h).seeded]
    exact ⟨raises_eq_none nofun hoperands, his⟩

theorem sameFlags_of_raises_eq_none (h : exec i s = .next t) (hr : raises i s = none) : SameFlags t s :=
  sameFlags_of_flag_eq fun _ => flag_of_not_raised h (by simp [hr])

end Good

/-- Settles O54, by induction on the commands: the first one completes, raises no fault and keeps the invariant, and the rest is good for
the state it leaves. -/
theorem goodSequenceNeverFaults : Obligations.GoodSequenceNeverFaults := by
  intro is s hs hgood
  induction is generalizing s with
  | nil => exact ⟨s, [], rfl, by simp, rfl, nofun, ⟨rfl, rfl, rfl, rfl⟩⟩
  | cons i is ih =>
    obtain ⟨t, hexec⟩ := exec_completes hs i
    obtain ⟨hr, his⟩ := sequenceGood_cons hgood hexec
    obtain ⟨v, hv⟩ := exec_answers_ok hexec hr
    obtain ⟨u, rs, hsend, hrs, hlength, hok, hflags⟩ := ih t (exec_keeps_stateInv hs hexec) his
    refine ⟨u, .ok v :: rs, ?_, ?_, congrArg (· + 1) hlength, List.forall_mem_cons.mpr ⟨rfl, hok⟩,
      sameFlags_trans hflags (sameFlags_of_raises_eq_none hexec hr)⟩
    · rw [sendAll, hexec]
      exact hsend
    · rw [hrs, hv, List.append_assoc]
      rfl

end Sys2Proof.Proofs
end

section
/-! PROOF. Reset and whole runs (70_reset_and_hazards.md, rules R180, R190, R191): every step completes, only a reset clears `SEEDED` or a
flag, and the flags at the end of a run tell whether it went wrong. -/

namespace Sys2Proof.Proofs

open Sys2Proof.Machine Sys2Proof.Laws

/-! ### Progress (rules R22, R190) -/

/-- Settles O15, along the moves the host can have queued; what decodes completes because the invariant does not look at the queue. -/
theorem stepAnswersFromInvariant : Obligations.StepAnswersFromInvariant := by
  intro s hs
  cases hhost : s.host with
  | nil => exact ⟨_, step_of_no_move hhost⟩
  | cons m rest =>
    cases m with
    | reset => exact ⟨_, step_of_reset hhost⟩
    | command w =>
      cases hdecode : decode w with
      | error e => exact ⟨_, step_of_illegal hhost hdecode⟩
      | ok i =>
        rw [step_of_legal hhost hdecode]
        exact exec_completes (stateInv_withHost hs rest) i

/-! ### What a command word leaves, by the response it gets (rules R72, R165) -/

/-- `t` is a state that a command leaves of `s` when it is answered with `r`: a fault response sets its own flag, the other flags and the
host's moves are kept, and a seeded block stays seeded. -/
structure AnsweredBy (r : Response) (s t : State) : Prop where
  responses : t.responses = s.responses ++ [r]
  flags : ∀ k, flag k t = (flag k s || decide (r = .fault k))
  seeded : s.seeded = true → t.seeded = true
  host : t.host = s.host

theorem anyFlag_eq_flags (s : State) :
    anyFlag s = (flag .illegal s || flag .unseeded s || flag .range s || flag .cpRange s) := rfl

section Answered
variable {r : Response} {s t : State}

theorem answeredBy_raiseFault (k : FaultKind) (s : State) : AnsweredBy (.fault k) s (raiseFault k s) where
  responses := raiseFault_responses k s
  flags j := by simp [flag_raiseFault, Bool.or_comm, eq_comm]
  seeded hs := (raiseFault_seeded k s).trans hs
  host := raiseFault_host k s

/-- A command that raises no fault keeps every flag. -/
theorem answeredBy_ok {v : Word} (hresponses : t.responses = s.responses ++ [.ok v]) (hflags : ∀ k, flag k t = flag k s)
    (hseeded : s.seeded = true → t.seeded = true) (hhost : t.host = s.host) : AnsweredBy (.ok v) s t where
  responses := hresponses
  flags k := by simp [hflags k]
  seeded := hseeded
  host := hhost

theorem exec_answered {i : Instr} (h : exec i s = .next t) : ∃ r, AnsweredBy r s t := by
  rcases exec_cases h with ⟨n, -, rfl⟩ | ⟨k, -, rfl⟩ | ⟨a, -, -, -, rfl⟩ | ⟨sr, v, -, -, rfl⟩
  · exact ⟨_, answeredBy_ok rfl (by simp) (fun _ => rfl) rfl⟩
  · exact ⟨_, answeredBy_raiseFault k s⟩
  · exact ⟨_, answeredBy_ok rfl (by simp) id rfl⟩
  · exact ⟨_, answeredBy_ok rfl (by simp) id rfl⟩

/-- Every command word, illegal or not, is answered, with the move taken off the host's list. -/
theorem step_answered {w : CommandWord} {rest : List HostMove} (hhost : s.host = .command w :: rest) (h : step s = .next t) :
    ∃ r, AnsweredBy r { s with host := rest } t := by
  cases hdecode : decode w with
  | error e =>
    rw [step_of_illegal hhost hdecode] at h
    obtain rfl := Host.Outcome.next.inj h
    exact ⟨_, answeredBy_raiseFault .illegal { s with host := rest }⟩
  | ok i =>
    rw [step_of_legal hhost hdecode] at h
    exact exec_answered h

/-- A flag once set stays set. -/
theorem AnsweredBy.flag_stays (h : AnsweredBy r s t) {k : FaultKind} (hk : flag k s = true) : flag k t = true := by
  rw [h.flags, hk, Bool.true_or]

/-- Some flag is set afterwards exactly when one was before or the response is a fault. -/
theorem AnsweredBy.anyFlag_eq (h : AnsweredBy r s t) : anyFlag t = (anyFlag s || isFaultResponse r) := by
  rw [anyFlag_eq_flags t, anyFlag_eq_flags s, h.flags, h.flags, h.flags, h.flags]
  cases r with
  | ok v => simp [isFaultResponse]
  | fault k => cases k <;> simp [isFaultResponse]

end Answered

/-! ### Reset (rule R180) -/

/-- Settles O9: the reset's equation field by field; any other step is idle or answers a command word, which clears nothing. -/
theorem resetMoveResetsEverything : Obligations.ResetMoveResetsEverything := by
  refine ⟨fun s rest hhost => ⟨_, step_of_reset hhost, rfl, rfl, rfl, rfl, rfl, rfl, rfl, rfl, rfl, rfl, rfl⟩,
    fun s t h hno => ?keeps, rfl⟩
  case keeps =>
    cases hhost : s.host with
    | nil =>
      rw [step_of_no_move hhost] at h
      obtain rfl := Host.Outcome.next.inj h
      exact ⟨id, fun _ => id⟩
    | cons m rest =>
      cases m with
      | reset => exact absurd (congrArg List.head? hhost) hno
      | command w =>
        obtain ⟨r, hr⟩ := step_answered hhost h
        exact ⟨hr.seeded, fun k hk => hr.flag_stays ((flag_withHost k s rest).trans hk)⟩

/-! ### Runs without reset (rules R168, R191) -/

/-- A run over command words gives one response to each, and some flag is set at its end exactly when one was at its start or some
response is a fault. -/
theorem run_answered {ms : List HostMove} {s t : State} (hms : ∀ m ∈ ms, m ≠ .reset) (hhost : s.host = ms)
    (h : Host.Core.run Sys2Proof.core ms.length s = .next t) :
    ∃ rs, t.responses = s.responses ++ rs ∧ rs.length = ms.length ∧ anyFlag t = (anyFlag s || rs.any isFaultResponse) := by
  induction ms generalizing s with
  | nil =>
    obtain rfl := Host.Outcome.next.inj h
    exact ⟨[], by simp, rfl, by simp⟩
  | cons m rest ih =>
    obtain ⟨hm, hrest⟩ := List.forall_mem_cons.mp hms
    cases m with
    | reset => exact absurd rfl hm
    | command w =>
      rw [List.length_cons, run_succ] at h
      split at h
      next u hstep =>
        obtain ⟨r, hr⟩ := step_answered hhost hstep
        obtain ⟨rs, hrs, hlength, hany⟩ := ih hrest hr.host h
        have hfirst : anyFlag u = (anyFlag s || isFaultResponse r) := hr.anyFlag_eq
        refine ⟨r :: rs, ?_, congrArg (· + 1) hlength, ?_⟩
        · rw [hrs, hr.responses, List.append_assoc]
          rfl
        · rw [hany, hfirst, List.any_cons, Bool.or_assoc]
      next => cases h
      next => cases h

/-- Settles O55: with no flag set at its start, a run ends with a flag set exactly when one of its responses is a fault. -/
theorem flagsTellWhetherRunWentWrong : Obligations.FlagsTellWhetherRunWentWrong := by
  intro ms s t hms hs hhost h
  obtain ⟨rs, hrs, hlength, hany⟩ := run_answered hms hhost h
  refine ⟨rs, hrs, hlength, ?_⟩
  rw [hany, hs, Bool.false_or, List.any_eq_true]

end Sys2Proof.Proofs
end

section
/-! PROOF. The words that the spec prints with their decoding (30_encoding.md section 6, 95_test_vectors.md section 2.8): a listed command
is the encoding of what it decodes to, and an illegal word is rejected under the first rule it breaks. -/

namespace Sys2Proof.Proofs

section Rejecting
variable {w : CommandWord} {op : BitVec 8} {a b : Word}

/-- Rule R75: the opcode map has rows for `OP` 1 to 5 only. -/
theorem decode_of_unknownOp (hop : opField w = op) (hrange : op.toNat = 0 ∨ 6 ≤ op.toNat) :
    decode w = .error (.unknownOp op) := by
  have hne (n : BitVec 8) (hn : 1 ≤ n.toNat ∧ n.toNat ≤ 5) : op ≠ n := by
    rintro rfl
    omega
  simp [decode, hop, hne]

/-- Rule R76: only `NEXTINT` reads the field `B`. -/
theorem decode_of_bNotZero (hop : opField w = op) (hrow : op ∈ [0x01#8, 0x03#8, 0x04#8, 0x05#8]) (hb : bField w = b)
    (hnonzero : b ≠ 0#32) : decode w = .error (.bNotZero op b) := by
  simp only [List.mem_cons, List.not_mem_nil, or_false] at hrow
  obtain rfl | rfl | rfl | rfl := hrow
  all_goals simp [decode, decodeFA, decodeFSR, hop, hb, hnonzero]

/-- Rule R76: an `RDSR` word whose field `A` numbers no status register. -/
theorem decode_of_noStatusRegister (hop : opField w = 0x05#8) (ha : aField w = a) (hb : bField w = 0#32)
    (hlarge : Config.statusRegisters ≤ a.toNat) : decode w = .error (.noStatusRegister a) := by
  have hindex : ¬ a.toNat < Config.statusRegisters := hlarge.not_gt
  simp [decode, decodeFSR, hop, ha, hb, hindex]

end Rejecting

/-- Settles O1: the eight commands by the round trip of the encoding, the five illegal words by the rule that each breaks. -/
theorem decodeOfListedWords : Obligations.DecodeOfListedWords := by
  refine ⟨?seed, ?seedMax, ?nextint, ?nextintMax, ?enc, ?encLarge, ?dec, ?rdsr, ?seedB, ?rdsrIndex, ?op00, ?op06, ?opFF⟩
  case seedB => exact decode_of_bNotZero (by decide) (by decide) (by decide) (by decide)
  case rdsrIndex => exact decode_of_noStatusRegister (by decide) (by decide) (by decide) (by decide)
  case op00 | op06 | opFF => exact decode_of_unknownOp (by decide) (by decide)
  all_goals exact decode_eq_ok_iff.mpr ⟨by decide, by decide⟩

end Sys2Proof.Proofs
end
